-- ==== Sys2Proof/Word.lean ====
section
/-!
DEFINITION. The widths of the block (00_scope.md section 4, 10_state.md R11) and zero-extension between them.
Every value is an unsigned integer (R2), so a value of width w is a `BitVec w` read through `toNat`.
-/

namespace Sys2Proof

/-- 32 bits: a command word (R38), a temporary of any rule (R3), the register `E` (R11). -/
abbrev Word := BitVec 32

/-- 16 bits: the registers `X Y A D F` (R11), a ROM word (R24), the operand `imm16` (R39). -/
abbrev Half := BitVec 16

/-- 4 bits: the registers `N S I` and `STATUS` (R11, R18), the operand `idx` (R39), a ROM index (R33). -/
abbrev Nibble := BitVec 4

/-- 8 bits: one byte of the text of a report line (R30). -/
abbrev Byte := BitVec 8

/-- `zext_32` of a 16-bit value (00_scope.md section 6). -/
def Half.toWord (h : Half) : Word := h.setWidth 32

/-- `zext_32` of a 4-bit value (00_scope.md section 6). -/
def Nibble.toWord (n : Nibble) : Word := n.setWidth 32

end Sys2Proof
end

