-- ==== Sys2Proof/Syntax.lean ====
section
/-!
DEFINITION. The command set as syntax (30_encoding.md): the thirteen commands, their formats, and the source form of a
command with its pseudo-commands (R42, R43).
-/

namespace Sys2Proof

/-- The thirteen commands of R40, one constructor per row of spec/opcode_table.json. -/
inductive Instr where
  /-- `LDX imm16` (R45) -/
  | ldx (imm16 : Half)
  /-- `LDXP idx` (R46) -/
  | ldxp (idx : Nibble)
  /-- `LDY imm16` (R47) -/
  | ldy (imm16 : Half)
  /-- `LDA imm16` (R48) -/
  | lda (imm16 : Half)
  /-- `LDG` (R49) -/
  | ldg
  /-- `RED` (R50) -/
  | red
  /-- `SEED` (R52) -/
  | seed
  /-- `NR` (R53) -/
  | nr
  /-- `EST` (R55) -/
  | est
  /-- `ERR` (R57) -/
  | err
  /-- `FRC imm16` (R58) -/
  | frc (imm16 : Half)
  /-- `EMIT` (R59) -/
  | emit
  /-- `SWP` (R61) -/
  | swp
  deriving DecidableEq, Repr

/-- The three formats of R38. -/
inductive Format where
  /-- no operand -/
  | z
  /-- `imm16` in bits 15:0 -/
  | v
  /-- `idx` in bits 19:16 -/
  | i
  deriving DecidableEq, Repr

/-- A command as a host writes it (R42, R43): the operands are numerals not yet held to the width of their field. -/
inductive Source where
  | ldx (imm16 : Nat)
  | ldxp (idx : Nat)
  | ldy (imm16 : Nat)
  | lda (imm16 : Nat)
  | ldg
  | red
  | seed
  | nr
  | est
  | err
  | frc (imm16 : Nat)
  | emit
  | swp
  /-- pseudo-command `ESTI imm16` -/
  | esti (imm16 : Nat)
  /-- pseudo-command `ITER idx` -/
  | iter (idx : Nat)
  /-- pseudo-command `ESTM` -/
  | estm
  deriving DecidableEq, Repr

end Sys2Proof
end

