-- ==== Sys2Proof/WellFormed.lean ====
section
/-!
DEFINITION. Well-formedness.
An `Instr` cannot be ill formed: its operands are bit vectors of exactly their field's width (R38, R39).
The check is on the source form of a command, where R42 makes an operand outside its range an assembly error:
"`imm16` must be in `0..65535` and `idx` in `0..15`, and a numeral outside the range is an assembly error, not a truncation".
-/

namespace Sys2Proof

/-- `imm16` is in `0..65535` (R42). -/
def imm16InRange (n : Nat) : Bool := n < 65536

/-- `idx` is in `0..15` (R42). -/
def idxInRange (n : Nat) : Bool := n < 16

/-- The operand of a source command is in its range (R42). -/
def Source.wellFormed : Source → Bool
  | .ldx imm16 => imm16InRange imm16
  | .ldxp idx => idxInRange idx
  | .ldy imm16 => imm16InRange imm16
  | .lda imm16 => imm16InRange imm16
  | .ldg => true
  | .red => true
  | .seed => true
  | .nr => true
  | .est => true
  | .err => true
  | .frc imm16 => imm16InRange imm16
  | .emit => true
  | .swp => true
  | .esti imm16 => imm16InRange imm16
  | .iter idx => idxInRange idx
  | .estm => true

end Sys2Proof
end

