-- ==== Sys2Proof/Decode.lean ====
section
/-!
DEFINITION. The command word (30_encoding.md): its fields (R38, R39), the decoder (R40, R41, R44), and after it the encoder,
the opcode table with its match and mask columns (R40), and the expansion of a source command into commands (R42, R43).
-/

namespace Sys2Proof

/-- The field `op`, bits 31:28 (R38). -/
def fieldOp (w : Word) : Nibble := w.extractLsb' 28 4

/-- The field `mbz`, bits 27:20 (R38). -/
def fieldMbz (w : Word) : BitVec 8 := w.extractLsb' 20 8

/-- The field `idx`, bits 19:16 (R38). -/
def fieldIdx (w : Word) : Nibble := w.extractLsb' 16 4

/-- The field `imm16`, bits 15:0 (R38). -/
def fieldImm16 (w : Word) : Half := w.extractLsb' 0 16

/-- Why a word is illegal: the four clauses of R41. A word that several clauses meet is named by the first. -/
inductive IllegalReason where
  /-- `op` is `0x0`, `0xE` or `0xF` -/
  | reservedOpcode
  /-- bits 27:20 are not zero -/
  | mbzNotZero
  /-- the format is Z or V and bits 19:16 are not zero -/
  | idxNotZero
  /-- the format is Z or I and bits 15:0 are not zero -/
  | imm16NotZero
  deriving DecidableEq, Repr

/-- A Z-format word: every bit below the opcode is zero (R38). -/
def decodeZ (w : Word) (i : Instr) : Except IllegalReason Instr :=
  if fieldMbz w ≠ 0 then .error .mbzNotZero
  else if fieldIdx w ≠ 0 then .error .idxNotZero
  else if fieldImm16 w ≠ 0 then .error .imm16NotZero
  else .ok i

/-- A V-format word: an `imm16`, the other bits below the opcode zero (R38). -/
def decodeV (w : Word) (i : Half → Instr) : Except IllegalReason Instr :=
  if fieldMbz w ≠ 0 then .error .mbzNotZero
  else if fieldIdx w ≠ 0 then .error .idxNotZero
  else .ok (i (fieldImm16 w))

/-- An I-format word: an `idx`, the other bits below the opcode zero (R38). -/
def decodeI (w : Word) (i : Nibble → Instr) : Except IllegalReason Instr :=
  if fieldMbz w ≠ 0 then .error .mbzNotZero
  else if fieldImm16 w ≠ 0 then .error .imm16NotZero
  else .ok (i (fieldIdx w))

/-- The decoder: total on 32-bit words, and of the word alone (R44). The rows are those of R40. -/
def decode (w : Word) : Except IllegalReason Instr :=
  match (fieldOp w).toNat with
  | 0x1 => decodeV w .ldx
  | 0x2 => decodeI w .ldxp
  | 0x3 => decodeV w .ldy
  | 0x4 => decodeV w .lda
  | 0x5 => decodeZ w .ldg
  | 0x6 => decodeZ w .red
  | 0x7 => decodeZ w .seed
  | 0x8 => decodeZ w .nr
  | 0x9 => decodeZ w .est
  | 0xA => decodeZ w .err
  | 0xB => decodeV w .frc
  | 0xC => decodeZ w .emit
  | 0xD => decodeZ w .swp
  | _ => .error .reservedOpcode

/-- The opcode of a command (R40). -/
def Instr.opcode : Instr → Nibble
  | .ldx _ => 0x1#4
  | .ldxp _ => 0x2#4
  | .ldy _ => 0x3#4
  | .lda _ => 0x4#4
  | .ldg => 0x5#4
  | .red => 0x6#4
  | .seed => 0x7#4
  | .nr => 0x8#4
  | .est => 0x9#4
  | .err => 0xA#4
  | .frc _ => 0xB#4
  | .emit => 0xC#4
  | .swp => 0xD#4

/-- The format of a command (R40). -/
def Instr.format : Instr → Format
  | .ldx _ => .v
  | .ldxp _ => .i
  | .ldy _ => .v
  | .lda _ => .v
  | .ldg => .z
  | .red => .z
  | .seed => .z
  | .nr => .z
  | .est => .z
  | .err => .z
  | .frc _ => .v
  | .emit => .z
  | .swp => .z

/-- The `idx` field of a command, 0 where it has none (R42). -/
def Instr.idxField : Instr → Nibble
  | .ldx _ => 0#4
  | .ldxp idx => idx
  | .ldy _ => 0#4
  | .lda _ => 0#4
  | .ldg => 0#4
  | .red => 0#4
  | .seed => 0#4
  | .nr => 0#4
  | .est => 0#4
  | .err => 0#4
  | .frc _ => 0#4
  | .emit => 0#4
  | .swp => 0#4

/-- The `imm16` field of a command, 0 where it has none (R42). -/
def Instr.imm16Field : Instr → Half
  | .ldx imm16 => imm16
  | .ldxp _ => 0#16
  | .ldy imm16 => imm16
  | .lda imm16 => imm16
  | .ldg => 0#16
  | .red => 0#16
  | .seed => 0#16
  | .nr => 0#16
  | .est => 0#16
  | .err => 0#16
  | .frc imm16 => imm16
  | .emit => 0#16
  | .swp => 0#16

/-- The encoder: "the word of a command is `op << 28 | idx << 16 | imm16` with the absent fields 0" (R42). -/
def encode (i : Instr) : Word :=
  i.opcode.toWord <<< 28 ||| i.idxField.toWord <<< 16 ||| i.imm16Field.toWord

/-- The mask column of R40: the bits a row fixes. -/
def Format.mask : Format → Word
  | .z => 0xFFFFFFFF#32
  | .v => 0xFFFF0000#32
  | .i => 0xFFF0FFFF#32

/-- The match column of R40. -/
def Instr.matchWord (i : Instr) : Word := i.opcode.toWord <<< 28

/-- `w & mask == match` (R40): the word `w` is the command of `i`'s row. -/
def Instr.rowMatches (i : Instr) (w : Word) : Bool := w &&& i.format.mask == i.matchWord

/-- The word whose bits, numbered as spec/opcode_table.json numbers them, are the low `nbits` bits of `w`, the rest 0. -/
def tableWord (nbits w : Nat) : Word := BitVec.ofNat 32 (w % 2 ^ nbits)

/-- What the decoder reads from an instruction given as the opcode table numbers its bits. -/
def decodeTableWord (nbits w : Nat) : Option Instr :=
  match decode (tableWord nbits w) with
  | .ok i => some i
  | .error _ => none

/-- The expansion of a source command into commands (R43); a source command that is not a pseudo-command stands for itself.
It is meant for well-formed source commands, for which no operand is cut. -/
def Source.expand : Source → List Instr
  | .ldx imm16 => [.ldx (BitVec.ofNat 16 imm16)]
  | .ldxp idx => [.ldxp (BitVec.ofNat 4 idx)]
  | .ldy imm16 => [.ldy (BitVec.ofNat 16 imm16)]
  | .lda imm16 => [.lda (BitVec.ofNat 16 imm16)]
  | .ldg => [.ldg]
  | .red => [.red]
  | .seed => [.seed]
  | .nr => [.nr]
  | .est => [.est]
  | .err => [.err]
  | .frc imm16 => [.frc (BitVec.ofNat 16 imm16)]
  | .emit => [.emit]
  | .swp => [.swp]
  | .esti imm16 => [.ldx (BitVec.ofNat 16 imm16), .est]
  | .iter idx => [.ldxp (BitVec.ofNat 4 idx), .est, .ldg, .err, .emit]
  | .estm => [.red, .seed, .nr, .nr, .nr]

/-- The words of a source command, or none for an operand outside its range (R42: an assembly error, not a truncation). -/
def Source.assemble (c : Source) : Option (List Word) :=
  if c.wellFormed then some (c.expand.map encode) else none

end Sys2Proof
end

