-- ==== Sys2Proof/Config.lean ====
section
/-!
DEFINITION. What the spec leaves to the implementation (00_scope.md section 4, "Left open, taken by the model as arguments"):
the contents of the two ROMs, the free values, and the line template.
Each open value is a constant with no body, so that nothing in Lean can compute with it.
The reference tables of 20_memory.md R25 and R26 stand beside them for tests and for claims that name them.
-/

namespace Sys2Proof

/-- A ROM: sixteen 16-bit words, indexed `0..15` (R21, R24). -/
abbrev Rom := Vector Half 16

/-- Everything the block takes as a parameter. The operations of `Machine/Ops.lean` take it as an argument, as
00_scope.md section 4 asks, so that a claim can be stated for every content of the ROMs and every draw. -/
structure Params where
  /-- the seed ROM (R24) -/
  seed : Rom
  /-- the golden ROM (R24) -/
  gold : Rom
  /-- `NR_UF_VALUE`: the `Y` that the n-th draw leaves after a Newton underflow (R53) -/
  nrUfValue : Nat → Half
  /-- how many whole records a command cut short by a reset has handed over, at the n-th draw (R80) -/
  cutRecords : Nat → Nat

namespace Config

/-- The contents of the seed ROM. OPEN (D12, U3): no body. Log entry 1. -/
opaque seed : Rom

/-- The golden ROM before its two pinned entries are put in. OPEN (D12, U4): no body. Log entry 1. -/
opaque goldOpen : Rom

/-- The contents of the golden ROM: open, but for `GOLD[0] = 65535` and `GOLD[15] = 362` (R24). -/
def gold : Rom := (goldOpen.set 0 65535#16).set 15 362#16

/-- `NR_UF_VALUE`, a draw per occurrence. FREE VALUE (D9, U1): no body. Log entry 2. -/
opaque nrUfValue : Nat → Half

/-- The number of whole records that a command cut short by a reset has handed over. FREE VALUE (D27, U8): no body.
Log entry 6. -/
opaque cutRecords : Nat → Nat

/-- The literal text that `LINE_TEMPLATE` puts before the k-th number of a line (k = 0..3) and after the last one (k = 4).
It is given no record to read: it can neither print `diff` nor pad a number to a width (R60).
OPEN (U10): no body. Log entry 15. -/
opaque lineGap : Nat → List Byte

/-- The parameters of this block. -/
def params : Params :=
  { seed := seed, gold := gold, nrUfValue := nrUfValue, cutRecords := cutRecords }

/-- `SEED_REF` (R25): `min(65535, round(65536 / sqrt(n)))`, for vectors only and no fact about the repository's table. -/
def seedRef : Rom :=
  #v[65535#16, 65535#16, 46341#16, 37837#16, 32768#16, 29309#16, 26755#16, 24770#16,
     23170#16, 21845#16, 20724#16, 19760#16, 18919#16, 18176#16, 17515#16, 16921#16]

/-- `GOLD_REF` (R26): `min(65535, round(65536 / sqrt(2^i)))`, for vectors only. -/
def goldRef : Rom :=
  #v[65535#16, 46341#16, 32768#16, 23170#16, 16384#16, 11585#16, 8192#16, 5793#16,
     4096#16, 2896#16, 2048#16, 1448#16, 1024#16, 724#16, 512#16, 362#16]

end Config

/-- The reference instantiation of the ROMs (R25, R26) beside free values that stay open. -/
def Params.ref : Params :=
  { seed := Config.seedRef, gold := Config.goldRef, nrUfValue := Config.nrUfValue, cutRecords := Config.cutRecords }

end Sys2Proof
end

