-- ==== Sys2Proof/Machine/Record.lean ====
section
/-!
DEFINITION. The report record of 46_report.md R60.
-/

namespace Sys2Proof.Machine

/-- One record of the output trace: the five unsigned fields of R60, a snapshot of `X Y A D E` (R59). -/
structure Record where
  arg  : Half
  res  : Half
  ans  : Half
  diff : Half
  rel  : Word
  deriving DecidableEq, Repr

end Sys2Proof.Machine
end

