-- ==== Sys2Proof/Machine/State.lean ====
section
/-!
DEFINITION. The state of the block (10_state.md), as plain data, and the state after power-on (R23).
The block is idle in every `State`: a command is atomic to the host (R10, R83), so no state lies inside one.
-/

namespace Sys2Proof.Machine

/-- What the host can do to the block besides reading its registers (70_reset_and_hazards.md R80, R83).
The model's own type: the spec gives the actions and no encoding of them. Log entries 3, 5 and 6. -/
inductive HostInput where
  /-- the host presents a command word on `CMD` and waits until the block accepts it (R83) -/
  | command (word : Word)
  /-- the host asserts and releases reset while the block is idle (R80) -/
  | reset
  /-- the host presents a command word and asserts reset while that command is in progress (R80) -/
  | commandCutByReset (word : Word)
  deriving DecidableEq, Repr

/-- The state: the nine data registers (R11), `STATUS` (R18) and `OUT` (R20) of the spec, then two fields of the model's own. -/
structure State where
  /-- `X`, the original, unreduced input (R11) -/
  x : Half
  /-- `N`, the reduced value, the index into the seed ROM (R11) -/
  n : Nibble
  /-- `S`, the scale factor (R11) -/
  s : Nibble
  /-- `Y`, the current Q0.16 estimate (R11) -/
  y : Half
  /-- `A`, the Q0.16 reference value (R11) -/
  a : Half
  /-- `D`, the absolute difference (R11) -/
  d : Half
  /-- `E`, the relative error in ten-thousandths (R11) -/
  e : Word
  /-- `F`, the last 4-digit fraction (R11) -/
  f : Half
  /-- `I`, the sweep exponent (R11, R16) -/
  i : Nibble
  /-- `STATUS` (R18); its bits are named in `Machine/Flags.lean` -/
  status : Nibble
  /-- `OUT`: the records handed to the sink since power-on, oldest first (R20) -/
  out : List Record
  /-- The model's own: what the host has still to do, in order. Log entry 3. -/
  host : List HostInput
  /-- The model's own: how many free values have been drawn. Log entry 2. -/
  draws : Nat
  deriving DecidableEq, Repr

/-- Why a step could stop with a fault. There is NO reason, so the type has no constructor: "The block raises no synchronous
exception that transfers control" (R63), and every condition is a bit of `STATUS`. Raised by nothing. Log entry 9. -/
inductive Fault where
  deriving DecidableEq, Repr

/-- Why a step could refuse an instruction. -/
inductive Refusal where
  /-- The instruction has no meaning yet. Safe. Raised by no arm of `exec`: every command has its meaning. -/
  | notModelled (mnemonic : String)
  deriving DecidableEq, Repr

/-- The state after power-on: the reset values of R23, `OUT` empty; no host input is pending (log entry 3) and no free value
has been drawn (log entry 2). -/
def State.reset : State where
  x := 0#16
  n := 1#4
  s := 0#4
  y := 0#16
  a := 0#16
  d := 0#16
  e := 0#32
  f := 0#16
  i := 0#4
  status := 0#4
  out := []
  host := []
  draws := 0

end Sys2Proof.Machine
end

