-- ==== Sys2Proof/Machine/Operands.lean ====
section
/-!
DEFINITION. Where operands come from: the two ROMs (20_memory.md R27), the power of two of an exponent (40_load.md R46),
and the registers as the host reads them (10_state.md R14, R18).
-/

namespace Sys2Proof.Machine

/-- `MemRead(SEED, i)` and `MemRead(GOLD, i)` (R27): the word at index `i`; every 4-bit index is legal (R31, R33). -/
def romRead (rom : Rom) (index : Nibble) : Half := rom.get index.toFin

/-- `1 << idx` in 16 bits (R46). -/
def powerOfTwo (idx : Nibble) : Half := 1#16 <<< idx.toNat

/-- What the host can read when the block is idle (R14, R84). -/
inductive HostReg where
  | x | n | s | y | a | d | e | f | i | status
  deriving DecidableEq, Repr

/-- The host's 32-bit read of a register (R14, R84); a narrower register is zero-extended (R2; for `STATUS`, R18).
A read is no command and changes nothing, so it is a function of the state. Log entry 13. -/
def hostRead (r : HostReg) (s : State) : Word :=
  match r with
  | .x => s.x.toWord
  | .n => s.n.toWord
  | .s => s.s.toWord
  | .y => s.y.toWord
  | .a => s.a.toWord
  | .d => s.d.toWord
  | .e => s.e
  | .f => s.f.toWord
  | .i => s.i.toWord
  | .status => s.status.toWord

end Sys2Proof.Machine
end

