-- ==== Sys2Proof/Machine/Datapath.lean ====
section
/-!
DEFINITION. The arithmetic of the four units, on values alone. Every temporary is a 32-bit unsigned integer (R3), every
shift is logical (R4), every division truncates (R6), and only the last step of the Newton iteration truncates to 16 bits (R5).
-/

namespace Sys2Proof.Machine

/-! ## Range-reduction unit (41_range_reduce.md) -/

/-- One reduction step: `w <- (w + 2) >> 2`, the sum formed in 32 bits (R50). -/
def reduceStep (w : Word) : Word := (w + 2#32) >>> 2

/-- The bit-width tracker: `w > 15` (R51 (a)). -/
def needsReduction (w : Word) : Bool := 15#32 < w

/-- The loop of R50 on the working value `w` and the count `c`. The first argument bounds the number of steps; R50's loop
has no such bound, and `Laws/Datapath.lean` shows that the bound used is never the reason it ends. -/
def reduceLoop : Nat → Word → Word → Word × Word
  | 0, w, c => (w, c)
  | fuel + 1, w, c => if needsReduction w then reduceLoop fuel (reduceStep w) (c + 1#32) else (w, c)

/-- The clamp: "avoids a zero table index" (R50). -/
def clampToOne (w : Word) : Word := if w = 0#32 then 1#32 else w

/-- `(N, S)` for an input (R50). The source bounds the loop by 8 steps (R51 (c)). -/
def rangeReduce (x : Half) : Nibble × Nibble :=
  let r := reduceLoop 8 x.toWord 0#32
  ((clampToOne r.1).setWidth 4, r.2.setWidth 4)

/-! ## Newton-Raphson unit (43_newton.md) -/

/-- `y2 = (Y * Y) >> 16` (R53, step 1). -/
def newtonSquare (y : Half) : Word := (y.toWord * y.toWord) >>> 16

/-- `p = X * y2` (R53, step 2). -/
def newtonProduct (x y : Half) : Word := x.toWord * newtonSquare y

/-- `3 << 16`, that is 196608 (R53). -/
def threeQ16 : Word := 3#32 <<< 16

/-- `p > 3 << 16`: the subtraction of step 2 would underflow (R53, R65). -/
def newtonUnderflows (x y : Half) : Bool := threeQ16 < newtonProduct x y

/-- `v`, the value of step 4 before its truncation, where the subtraction does not underflow (R53). -/
def newtonWide (x y : Half) : Word := (((threeQ16 - newtonProduct x y) >>> 2) * y.toWord) >>> 15

/-- `trunc_16(v)` (R53, step 4; R5). -/
def newtonResult (x y : Half) : Half := (newtonWide x y).setWidth 16

/-- The estimate for input 0, the raw value 65535 (R7, R55). -/
def sentinel : Half := 65535#16

/-! ## Error-computation unit (45_error.md) -/

/-- `|A - Y|`, the larger operand minus the smaller (R9, R57). -/
def absDiff (a y : Half) : Half := if y ≤ a then a - y else y - a

/-- `(d * 10000) / A`, truncating (R57); used where `A` is not 0. -/
def relativeError (d a : Half) : Word := (d.toWord * 10000#32) / a.toWord

/-- `frac4(v) = (v * 10000) >> 16`, the product held in 32 bits (R58). -/
def frac4 (v : Half) : Half := ((v.toWord * 10000#32) >>> 16).setWidth 16

end Sys2Proof.Machine
end

