-- ==== Sys2Proof/Machine/Flags.lean ====
section
/-!
DEFINITION. `STATUS` and its four bits (10_state.md R18, 60_exceptions.md R63, R64, R68), and the writes to one field of the
state that every operation is made of.
-/

namespace Sys2Proof.Machine

/-! ## Writes to one field: "`X <- v`" (00_scope.md section 6) -/

def State.setX (s : State) (v : Half) : State := { s with x := v }
def State.setN (s : State) (v : Nibble) : State := { s with n := v }
def State.setS (s : State) (v : Nibble) : State := { s with s := v }
def State.setY (s : State) (v : Half) : State := { s with y := v }
def State.setA (s : State) (v : Half) : State := { s with a := v }
def State.setD (s : State) (v : Half) : State := { s with d := v }
def State.setE (s : State) (v : Word) : State := { s with e := v }
def State.setF (s : State) (v : Half) : State := { s with f := v }
def State.setI (s : State) (v : Nibble) : State := { s with i := v }
def State.setStatus (s : State) (v : Nibble) : State := { s with status := v }
def State.setOut (s : State) (v : List Record) : State := { s with out := v }
def State.setHost (s : State) (v : List HostInput) : State := { s with host := v }
def State.setDraws (s : State) (v : Nat) : State := { s with draws := v }

/-! ## `STATUS` -/

/-- The four bits of `STATUS` (R18). -/
inductive Flag where
  /-- Newton underflow, sticky (R65) -/
  | uf
  /-- zero reference, sticky (R66) -/
  | dz
  /-- illegal command word, sticky (R67) -/
  | il
  /-- the last `EST` took the sentinel path, plain (R68) -/
  | zs
  deriving DecidableEq, Repr

/-- The bit number of a flag in `STATUS` (R18). -/
def flagBit (f : Flag) : Nat :=
  match f with
  | .uf => 0
  | .dz => 1
  | .il => 2
  | .zs => 3

/-- "A sticky bit, once 1, stays 1 until reset": `UF`, `DZ` and `IL` (R18). -/
def flagSticky (f : Flag) : Bool :=
  match f with
  | .uf => true
  | .dz => true
  | .il => true
  | .zs => false

/-- The value of a flag. -/
def State.flag (s : State) (f : Flag) : Bool := s.status.getLsbD (flagBit f)

/-- `raise F`: `STATUS.F <- 1` and nothing more (R64). -/
def State.raise (s : State) (f : Flag) : State := s.setStatus (s.status ||| 1#4 <<< flagBit f)

/-- `ZS <- b`, the other bits kept (R55, R68). -/
def State.writeZs (s : State) (b : Bool) : State :=
  if b then s.setStatus (s.status ||| 0b1000#4) else s.setStatus (s.status &&& 0b0111#4)

end Sys2Proof.Machine
end

