-- ==== Sys2Proof/Machine/Ops.lean ====
section
/-!
DEFINITION. The named operations over the registers, the ROMs, `STATUS` and `OUT`: each is the effect that one rule of
40_load.md to 46_report.md gives, once, so that a composite command performs it as its parts do ("do CMD", 00_scope.md
section 6). Parameters of the block come as the argument `p`.
There is no trap entry and no trap return to model (R71): an exceptional condition sets its bit of `STATUS` (R64).
-/

namespace Sys2Proof.Machine

/-- `I <- idx; X <- 1 << idx` (R46). -/
def loadExponent (idx : Nibble) (s : State) : State :=
  (s.setI idx).setX (powerOfTwo idx)

/-- `A <- MemRead(GOLD, I)` (R49). -/
def loadGolden (p : Params) (s : State) : State :=
  s.setA (romRead p.gold s.i)

/-- `(N, S) <- reduce(X)` (R50). -/
def reduce (s : State) : State :=
  (s.setN (rangeReduce s.x).1).setS (rangeReduce s.x).2

/-- `Y <- MemRead(SEED, N) >> S` (R52). -/
def lookUpSeed (p : Params) (s : State) : State :=
  s.setY (romRead p.seed s.n >>> s.s.toNat)

/-- `any_16`: a fresh unspecified value for `Y` (R53, `NR_UF_VALUE`). -/
def drawY (p : Params) (s : State) : State :=
  (s.setY (p.nrUfValue s.draws)).setDraws (s.draws + 1)

/-- One Newton iteration on `Y` against `X` (R53). -/
def newton (p : Params) (s : State) : State :=
  if newtonUnderflows s.x s.y then drawY p (s.raise .uf)
  else s.setY (newtonResult s.x s.y)

/-- The non-zero path of the estimate, the pseudo-command `ESTM` (R43): reduction, seed, exactly three iterations (R56). -/
def refine (p : Params) (s : State) : State :=
  newton p (newton p (newton p (lookUpSeed p (reduce s))))

/-- The full estimate (R55). -/
def estimate (p : Params) (s : State) : State :=
  if s.x = 0#16 then (s.setY sentinel).writeZs true
  else refine p (s.writeZs false)

/-- `D <- |A - Y|`, and `E` from it (R57). -/
def compare (s : State) : State :=
  if s.a = 0#16 then ((s.setD (absDiff s.a s.y)).setE 0xFFFFFFFF#32).raise .dz
  else (s.setD (absDiff s.a s.y)).setE (relativeError (absDiff s.a s.y) s.a)

/-- The record `{arg: X, res: Y, ans: A, diff: D, rel: E}` (R59). -/
def snapshot (s : State) : Record :=
  { arg := s.x, res := s.y, ans := s.a, diff := s.d, rel := s.e }

/-- `OUT <- OUT ++ [r]` with the snapshot `r` (R59). -/
def emitRecord (s : State) : State :=
  s.setOut (s.out ++ [snapshot s])

/-- One iteration of the sweep, the pseudo-command `ITER idx` (R43, R61). -/
def sweepIteration (p : Params) (idx : Nibble) (s : State) : State :=
  emitRecord (compare (loadGolden p (estimate p (loadExponent idx s))))

/-- The sixteen exponents of the sweep, in order (R61, R62). -/
def sweepExponents : List Nibble := (List.range 16).map (BitVec.ofNat 4)

/-- The verification sweep (R61). -/
def sweep (p : Params) (s : State) : State :=
  sweepExponents.foldl (fun t idx => sweepIteration p idx t) s

/-- What a reset does to an idle block (R23, R80): every register and `STATUS` take their reset values; `OUT` is in the
environment and stays, and so do the model's own fields. -/
def applyReset (s : State) : State :=
  { State.reset with out := s.out, host := s.host, draws := s.draws }

/-- What is left when a reset cuts short a command that would have led from `s` to `t` (R80): the reset state, and of the
records the command was going to append a free number of whole ones, the first ones. Log entry 6. -/
def cutByReset (p : Params) (s t : State) : State :=
  ((applyReset t).setOut (s.out ++ (t.out.drop s.out.length).take (p.cutRecords t.draws))).setDraws (t.draws + 1)

end Sys2Proof.Machine
end

