-- ==== Sys2Proof/Machine/Error.lean ====
section
/-!
DEFINITION. The error-computation commands `ERR`, `FRC` (45_error.md).
-/

namespace Sys2Proof.Machine

/-- `ERR` (R57): `D` and `E` from `A` and `Y`; `DZ` for `A = 0`. -/
def execErr (s : State) : Host.Outcome State Fault Refusal :=
  .next (compare s)

/-- `FRC imm16` (R58): `F <- (imm16 * 10000) >> 16`; no flag. -/
def execFrc (imm16 : Half) (s : State) : Host.Outcome State Fault Refusal :=
  .next (s.setF (frac4 imm16))

end Sys2Proof.Machine
end

