-- ==== Sys2Proof/Machine/Estimate.lean ====
section
/-!
DEFINITION. The full estimate `EST` (44_estimate.md).
-/

namespace Sys2Proof.Machine

/-- `EST` (R55, R56): the sentinel for `X = 0`, otherwise reduction, seed and three iterations; `ZS` always written. -/
def execEst (s : State) : Host.Outcome State Fault Refusal :=
  .next (estimate Config.params s)

end Sys2Proof.Machine
end

