-- ==== Sys2Proof/Machine/Load.lean ====
section
/-!
DEFINITION. The operand loads `LDX`, `LDXP`, `LDY`, `LDA`, `LDG` (40_load.md).
-/

namespace Sys2Proof.Machine

/-- `LDX imm16` (R45): `X <- imm16`; no flag. -/
def execLdx (imm16 : Half) (s : State) : Host.Outcome State Fault Refusal :=
  .next (s.setX imm16)

/-- `LDXP idx` (R46): `I <- idx; X <- 1 << idx`; no flag. -/
def execLdxp (idx : Nibble) (s : State) : Host.Outcome State Fault Refusal :=
  .next (loadExponent idx s)

/-- `LDY imm16` (R47): `Y <- imm16`; no flag. -/
def execLdy (imm16 : Half) (s : State) : Host.Outcome State Fault Refusal :=
  .next (s.setY imm16)

/-- `LDA imm16` (R48): `A <- imm16`; no flag. -/
def execLda (imm16 : Half) (s : State) : Host.Outcome State Fault Refusal :=
  .next (s.setA imm16)

/-- `LDG` (R49): `A <- MemRead(GOLD, I)`; no flag. -/
def execLdg (s : State) : Host.Outcome State Fault Refusal :=
  .next (loadGolden Config.params s)

end Sys2Proof.Machine
end

