-- ==== Sys2Proof/Machine/Newton.lean ====
section
/-!
DEFINITION. The Newton-Raphson command `NR` (43_newton.md).
-/

namespace Sys2Proof.Machine

/-- `NR` (R53): one iteration on `Y` against `X`; `UF` and an unspecified `Y` where the subtraction would underflow. -/
def execNr (s : State) : Host.Outcome State Fault Refusal :=
  .next (newton Config.params s)

end Sys2Proof.Machine
end

