-- ==== Sys2Proof/Machine/RangeReduce.lean ====
section
/-!
DEFINITION. The range-reduction command `RED` (41_range_reduce.md).
-/

namespace Sys2Proof.Machine

/-- `RED` (R50): `N` and `S` from `X`; `X` is not written; no flag. -/
def execRed (s : State) : Host.Outcome State Fault Refusal :=
  .next (reduce s)

end Sys2Proof.Machine
end

