-- ==== Sys2Proof/Machine/Report.lean ====
section
/-!
DEFINITION. The report port and the sweep sequencer, `EMIT`, `SWP` (46_report.md).
-/

namespace Sys2Proof.Machine

/-- `EMIT` (R59): one record appended to `OUT`; the sink takes it (R85, log entry 7); no flag. -/
def execEmit (s : State) : Host.Outcome State Fault Refusal :=
  .next (emitRecord s)

/-- `SWP` (R61): sixteen iterations of `LDXP i`, `EST`, `LDG`, `ERR`, `EMIT`, `i = 0..15`. -/
def execSwp (s : State) : Host.Outcome State Fault Refusal :=
  .next (sweep Config.params s)

end Sys2Proof.Machine
end

