-- ==== Sys2Proof/Machine/Seed.lean ====
section
/-!
DEFINITION. The seed look-up command `SEED` (42_seed.md).
-/

namespace Sys2Proof.Machine

/-- `SEED` (R52): `Y <- MemRead(SEED, N) >> S`; no flag. -/
def execSeed (s : State) : Host.Outcome State Fault Refusal :=
  .next (lookUpSeed Config.params s)

end Sys2Proof.Machine
end

