-- ==== Sys2Proof/Machine/Dispatch.lean ====
section
/-!
DEFINITION. One arm per command of 30_encoding.md R40, each a direct call of its meaning.
-/

namespace Sys2Proof.Machine

/-- The effect of a command (R40). -/
def exec (i : Instr) (s : State) : Host.Outcome State Fault Refusal :=
  match i with
  | .ldx imm16 => Sys2Proof.Machine.execLdx imm16 s
  | .ldxp idx => Sys2Proof.Machine.execLdxp idx s
  | .ldy imm16 => Sys2Proof.Machine.execLdy imm16 s
  | .lda imm16 => Sys2Proof.Machine.execLda imm16 s
  | .ldg => Sys2Proof.Machine.execLdg s
  | .red => Sys2Proof.Machine.execRed s
  | .seed => Sys2Proof.Machine.execSeed s
  | .nr => Sys2Proof.Machine.execNr s
  | .est => Sys2Proof.Machine.execEst s
  | .err => Sys2Proof.Machine.execErr s
  | .frc imm16 => Sys2Proof.Machine.execFrc imm16 s
  | .emit => Sys2Proof.Machine.execEmit s
  | .swp => Sys2Proof.Machine.execSwp s

end Sys2Proof.Machine
end

