-- ==== Sys2Proof/Machine/Sequencer.lean ====
section
/-!
DEFINITION. The sequencer: what the block does with the next thing the host does (70_reset_and_hazards.md R80, R83).
`Step.lean` only calls `serveNext`.
-/

namespace Sys2Proof.Machine

/-- Acceptance of a command word by the idle block, to completion (R83): a legal word runs its command, an illegal one does
`raise IL` and is consumed (R41, R67). -/
def acceptWord (w : Word) (s : State) : Host.Outcome State Fault Refusal :=
  match decode w with
  | .ok i => exec i s
  | .error _ => .next (s.raise .il)

/-- A command word whose command a reset cuts short (R80). Log entry 6. -/
def acceptWordCut (w : Word) (s : State) : Host.Outcome State Fault Refusal :=
  match acceptWord w s with
  | .next t => .next (cutByReset Config.params s t)
  | .fault r => .fault r
  | .refused r => .refused r

/-- One host input. -/
def serve (input : HostInput) (s : State) : Host.Outcome State Fault Refusal :=
  match input with
  | .command w => acceptWord w s
  | .reset => .next (applyReset s)
  | .commandCutByReset w => acceptWordCut w s

/-- The next host input is taken from the front and served; with none the block "is idle and holds its state" (R77). -/
def serveNext (s : State) : Host.Outcome State Fault Refusal :=
  match s.host with
  | [] => .next s
  | input :: rest => serve input (s.setHost rest)

/-- Commands issued one after another, each accepted when the one before is complete (R34, R83). -/
def execAll : List Instr → State → Host.Outcome State Fault Refusal
  | [], s => .next s
  | i :: rest, s =>
    match exec i s with
    | .next t => execAll rest t
    | .fault r => .fault r
    | .refused r => .refused r

/-- Command words accepted one after another (R83). -/
def acceptAll : List Word → State → Host.Outcome State Fault Refusal
  | [], s => .next s
  | w :: rest, s =>
    match acceptWord w s with
    | .next t => acceptAll rest t
    | .fault r => .fault r
    | .refused r => .refused r

/-- The eighty commands `ITER 0 ; ITER 1 ; ... ; ITER 15` (R43, R61). -/
def sweepCommands : List Instr := (List.range 16).flatMap fun k => (Source.iter k).expand

/-- A run: "reset followed by a finite sequence of command words, each issued after the one before completed" (R92). -/
def runFromReset (words : List Word) (s : State) : Host.Outcome State Fault Refusal :=
  acceptAll words (applyReset s)

/-- Everything the host can read, in one list (R14). -/
def hostRegs : List HostReg := [.x, .n, .s, .y, .a, .d, .e, .f, .i, .status]

/-- What is observable at the end `t` of a run that began in `s`: the registers, `STATUS`, and "the records appended to `OUT`
during the run, in order" (R92). -/
def observation (s t : State) : List (HostReg × Word) × List Record :=
  (hostRegs.map fun r => (r, hostRead r t), t.out.drop s.out.length)

/-- The host has command words to issue, after everything it has issued already (R83). -/
def State.issue (s : State) (words : List Word) : State :=
  s.setHost (s.host ++ words.map .command)

/-- The word is presented on `CMD` ahead of everything the host has still to do. -/
def State.presentFirst (s : State) (w : Word) : State :=
  s.setHost (.command w :: s.host)

end Sys2Proof.Machine
end

