-- ==== Sys2Proof/Machine/Step.lean ====
section
/-!
DEFINITION. One step of the block: the next host input, served to completion (R10, R83). Log entries 3 and 4.
-/

namespace Sys2Proof.Machine

/-- One step: the block accepts the next host input and completes it; with no input pending it idles. -/
def step (s : State) : Host.Outcome State Fault Refusal := serveNext s

/-- The state in which the host presents next the word that the opcode table numbers as `w`. There is no instruction memory
(R17), so the place the next instruction comes from is the command port `CMD`. -/
def State.withFetchWord (s : State) (nbits w : Nat) : State := s.presentFirst (tableWord nbits w)

end Sys2Proof.Machine
end

