-- ==== Sys2Proof/Machine/Assembler.lean ====
section
/-!
DEFINITION. The assembler syntax of 30_encoding.md R42: one line of text to a source command, and to command words.
Log entry 14.
-/

namespace Sys2Proof.Machine

/-- Why a line of text is no command. -/
inductive AsmError where
  /-- the mnemonic is none of R40 and none of R43 -/
  | unknownMnemonic
  /-- an operand after a mnemonic that takes none, or none after one that takes one -/
  | operandShape
  /-- what follows the mnemonic and its one space is no numeral -/
  | notANumeral
  /-- the numeral is outside the range of its field -/
  | outOfRange
  deriving DecidableEq, Repr

/-- The value of a decimal digit. -/
def decimalDigit (c : Char) : Option Nat :=
  if '0'.toNat ≤ c.toNat ∧ c.toNat ≤ '9'.toNat then some (c.toNat - '0'.toNat) else none

/-- The value of a hexadecimal digit, in either case of letter (DESIGN CHOICE, log entry 14). -/
def hexDigit (c : Char) : Option Nat :=
  if 'a'.toNat ≤ c.toNat ∧ c.toNat ≤ 'f'.toNat then some (c.toNat - 'a'.toNat + 10)
  else if 'A'.toNat ≤ c.toNat ∧ c.toNat ≤ 'F'.toNat then some (c.toNat - 'A'.toNat + 10)
  else decimalDigit c

/-- The value of a run of digits in a base, after the digits already read. -/
def digitsValue (base : Nat) (digit : Char → Option Nat) : Nat → List Char → Option Nat
  | acc, [] => some acc
  | acc, c :: cs =>
    match digit c with
    | some v => digitsValue base digit (acc * base + v) cs
    | none => none

/-- "An operand is an unsigned decimal numeral, or `0x` followed by hexadecimal digits" (R42). Zeros at the front are allowed, and
`0x` alone is no numeral (DESIGN CHOICE, log entry 14). -/
def numeral (text : List Char) : Option Nat :=
  match text with
  | [] => none
  | '0' :: 'x' :: [] => none
  | '0' :: 'x' :: c :: cs => digitsValue 16 hexDigit 0 (c :: cs)
  | c :: cs => digitsValue 10 decimalDigit 0 (c :: cs)

/-- The line without its comment: "`;` starts a comment to the end of the line" (R42). -/
def dropComment (line : List Char) : List Char := line.takeWhile (· ≠ ';')

/-- The line without the spaces at its end (DESIGN CHOICE, log entry 14: R42 does not name them). -/
def trimRight (line : List Char) : List Char := (line.reverse.dropWhile (· = ' ')).reverse

/-- A mnemonic with no operand. -/
def plainMnemonic (m : List Char) : Option Source :=
  if m = ['L', 'D', 'G'] then some .ldg
  else if m = ['R', 'E', 'D'] then some .red
  else if m = ['S', 'E', 'E', 'D'] then some .seed
  else if m = ['N', 'R'] then some .nr
  else if m = ['E', 'S', 'T'] then some .est
  else if m = ['E', 'R', 'R'] then some .err
  else if m = ['E', 'M', 'I', 'T'] then some .emit
  else if m = ['S', 'W', 'P'] then some .swp
  else if m = ['E', 'S', 'T', 'M'] then some .estm
  else none

/-- A mnemonic with an operand. -/
def operandMnemonic (m : List Char) : Option (Nat → Source) :=
  if m = ['L', 'D', 'X'] then some .ldx
  else if m = ['L', 'D', 'X', 'P'] then some .ldxp
  else if m = ['L', 'D', 'Y'] then some .ldy
  else if m = ['L', 'D', 'A'] then some .lda
  else if m = ['F', 'R', 'C'] then some .frc
  else if m = ['E', 'S', 'T', 'I'] then some .esti
  else if m = ['I', 'T', 'E', 'R'] then some .iter
  else none

/-- One line as a source command (R42). DESIGN CHOICE (log entry 14), since R42 says only "One command per line": a blank line
(empty, or nothing but spaces) and a line with nothing but a comment hold no command and are no error; spaces at the end of a
line or before a comment are ignored, and spaces before a mnemonic are an error. -/
def parseLine (line : List Char) : Except AsmError (Option Source) :=
  let text := trimRight (dropComment line)
  let mnemonic := text.takeWhile (· ≠ ' ')
  match text, text.drop mnemonic.length with
  | [], _ => .ok none
  | _, [] =>
    match plainMnemonic mnemonic, operandMnemonic mnemonic with
    | some c, _ => .ok (some c)
    | none, some _ => .error .operandShape
    | none, none => .error .unknownMnemonic
  | _, _ :: operand =>
    match operandMnemonic mnemonic, plainMnemonic mnemonic with
    | none, some _ => .error .operandShape
    | none, none => .error .unknownMnemonic
    | some make, _ =>
      match numeral operand with
      | none => .error .notANumeral
      | some v => if (make v).wellFormed then .ok (some (make v)) else .error .outOfRange

/-- The command words of one line of text (R42, R43). -/
def assembleLine (line : List Char) : Except AsmError (List Word) :=
  match parseLine line with
  | .error r => .error r
  | .ok none => .ok []
  | .ok (some c) => .ok (c.expand.map encode)

/-- The command words of a program, "one command per line" (R42), or its first error (which of several: DESIGN CHOICE,
log entry 14). -/
def assembleLines : List (List Char) → Except AsmError (List Word)
  | [] => .ok []
  | line :: rest =>
    match assembleLine line, assembleLines rest with
    | .error r, _ => .error r
    | .ok _, .error r => .error r
    | .ok ws, .ok more => .ok (ws ++ more)

end Sys2Proof.Machine
end

