-- ==== Sys2Proof/Machine/Text.lean ====
section
/-!
DEFINITION. How the numbers of a record are written, and the line of text for a record (46_report.md R60).
The text is made by the host's side of the report port (R85): no command reads it and no state holds it.
-/

namespace Sys2Proof.Machine

/-- The ASCII code of a character. -/
def asciiByte (c : Char) : Byte := BitVec.ofNat 8 c.toNat

/-- The decimal numeral of a number, most significant digit first, no padding, no sign (R60). -/
def decimal (k : Nat) : List Byte := (Nat.toDigits 10 k).map asciiByte

/-- `dec4(k)`: "the four ASCII decimal digits of `k`, most significant first, with leading zeros", and for a number above
9999 "the full decimal numeral" (R60). -/
def dec4 (k : Nat) : List Byte := (decimal k).leftpad 4 (asciiByte '0')

/-- `0.` then the digits (R60). -/
def zeroPoint (digits : List Byte) : List Byte := asciiByte '0' :: asciiByte '.' :: digits

/-- The text of the argument (R60). -/
def argText (r : Record) : List Byte := decimal r.arg.toNat

/-- The text of the result (R60). -/
def resText (r : Record) : List Byte := zeroPoint (dec4 (frac4 r.res).toNat)

/-- The text of the correct answer (R60). -/
def ansText (r : Record) : List Byte := zeroPoint (dec4 (frac4 r.ans).toNat)

/-- The text of the relative error (R60). -/
def relText (r : Record) : List Byte := zeroPoint (dec4 r.rel.toNat)

/-- Whether a byte is an ASCII decimal digit: next to a number's text it would be read as a digit of that number. -/
def isDigit (b : Byte) : Bool := asciiByte '0' ≤ b && b ≤ asciiByte '9'

/-- Whether a byte is an ASCII sign. -/
def isSign (b : Byte) : Bool := b == asciiByte '+' || b == asciiByte '-'

/-- A byte string without the bytes at its start that satisfy `p`. -/
def trimStart (p : Byte → Bool) (l : List Byte) : List Byte := l.dropWhile p

/-- A byte string without the bytes at its end that satisfy `p`. -/
def trimEnd (p : Byte → Bool) (l : List Byte) : List Byte := (l.reverse.dropWhile p).reverse

/-- The text before the argument: the open template's, with nothing at its end that would pad or sign the numeral
("no padding, no sign", R60). -/
def textBeforeArg : List Byte := trimEnd (fun b => isDigit b || isSign b) (Config.lineGap 0)

/-- The text between two numbers, before the k-th: the open template's, with no digit that would join either number. -/
def textBetween (k : Nat) : List Byte := trimEnd isDigit (trimStart isDigit (Config.lineGap k))

/-- The text after the last number: the open template's, with no digit that would join the number. -/
def textAfterRel : List Byte := trimStart isDigit (Config.lineGap 4)

/-- `LINE_TEMPLATE(record)`: the four texts "in that order", and around them the open template's literal text, the same for
every record; `diff` "is not printed" (R60). Log entry 15. -/
def lineText (r : Record) : List Byte :=
  textBeforeArg ++ argText r ++ textBetween 1 ++ resText r ++ textBetween 2 ++ ansText r ++ textBetween 3 ++ relText r ++
    textAfterRel

/-- The text of an output trace: the lines in the order of the records (R37). -/
def traceText (records : List Record) : List Byte := records.flatMap lineText

end Sys2Proof.Machine
end

