-- ==== Sys2Proof/Safety.lean ====
section
/-!
DEFINITION. What counts as a safe run, in the terms that claims use: the invariant of 10_state.md R12, the recorded
conditions (60_exceptions.md R65 to R67), and the preconditions of 70_reset_and_hazards.md R86 to R88.
-/

namespace Sys2Proof.Machine

/-- "In every state reachable from reset, `1 <= N <= 15` and `0 <= S <= 7`" (R12). -/
abbrev State.Inv (s : State) : Prop := 1 ≤ s.n.toNat ∧ s.n.toNat ≤ 15 ∧ s.s.toNat ≤ 7

/-- No sticky condition has been recorded (R63, R64). -/
def State.noConditionRecorded (s : State) : Bool := !s.flag .uf && !s.flag .dz && !s.flag .il

/-- The Newton underflow precondition: `X * ((Y*Y) >> 16) <= 196608` (R86), in exact arithmetic. -/
abbrev NewtonSafe (x y : Half) : Prop := x.toNat * (y.toNat * y.toNat / 65536) ≤ 196608

/-- `N` and `S` are those of the current `X`: no operand of the primitive path is stale (R87). -/
abbrev ReducedForX (s : State) : Prop := (s.n, s.s) = rangeReduce s.x

/-- A record is consistent: its `diff` and `rel` are those that `ERR` gives for its `res` and `ans` (R57, R88). -/
abbrev RecordConsistent (r : Record) : Prop :=
  r.diff = absDiff r.ans r.res ∧
    r.rel = if r.ans = 0#16 then 0xFFFFFFFF#32 else relativeError r.diff r.ans

/-- Every register and `STATUS` hold their reset values (R23). -/
abbrev HasResetRegisters (s : State) : Prop :=
  s.x = 0#16 ∧ s.n = 1#4 ∧ s.s = 0#4 ∧ s.y = 0#16 ∧ s.a = 0#16 ∧ s.d = 0#16 ∧ s.e = 0#32 ∧ s.f = 0#16 ∧
    s.i = 0#4 ∧ s.status = 0#4

/-- The records in `OUT` of `t` beyond as many as `s` has (R20). -/
def newRecords (s t : State) : List Record := t.out.drop s.out.length

/-- Two states agree on everything that a command may read: all but `F`, `STATUS`, `OUT` (R11, R18, R20) and the host's
pending inputs. -/
abbrev AgreeOnOperands (s t : State) : Prop :=
  s.x = t.x ∧ s.n = t.n ∧ s.s = t.s ∧ s.y = t.y ∧ s.a = t.a ∧ s.d = t.d ∧ s.e = t.e ∧ s.i = t.i ∧ s.draws = t.draws

/-- The registers `X N S Y` and the flag `UF`: what R55 compares `EST` and `ESTM` on. -/
abbrev AgreeOnEstimate (s t : State) : Prop :=
  s.x = t.x ∧ s.n = t.n ∧ s.s = t.s ∧ s.y = t.y ∧ s.flag .uf = t.flag .uf

/-- A byte is an ASCII decimal digit. -/
abbrev IsDigitByte (b : Byte) : Prop := 48 ≤ b.toNat ∧ b.toNat ≤ 57

/-- The number that a run of ASCII decimal digits writes, most significant first. -/
def digitsNumber (text : List Byte) : Nat := text.foldl (fun acc b => acc * 10 + (b.toNat - 48)) 0

end Sys2Proof.Machine
end

