-- ==== Sys2Proof/Certificates/Slice0/Obligations.lean ====
section
/-!
DEFINITION. The statements for the provers, from the numbered rules of spec/. OBLIGATIONS.json lists them.
-/

open Sys2Proof Sys2Proof.Machine

/-! ## Encoding (30_encoding.md) -/

/-- Words written out from the spec's encodings (95_test_vectors.md section 2.1) decode to the commands they stand for. -/
def Obligations.DecodeReadsSpecWords : Prop :=
  decode 0x10000064#32 = .ok (.ldx 100#16) ∧ decode 0x200F0000#32 = .ok (.ldxp 15#4) ∧
  decode 0x3000B505#32 = .ok (.ldy 46341#16) ∧ decode 0x4000016A#32 = .ok (.lda 362#16) ∧
  decode 0x50000000#32 = .ok .ldg ∧ decode 0x60000000#32 = .ok .red ∧ decode 0x70000000#32 = .ok .seed ∧
  decode 0x80000000#32 = .ok .nr ∧ decode 0x90000000#32 = .ok .est ∧ decode 0xA0000000#32 = .ok .err ∧
  decode 0xB000199A#32 = .ok (.frc 6554#16) ∧ decode 0xC0000000#32 = .ok .emit ∧ decode 0xD0000000#32 = .ok .swp

/-- Decoding the word of any command, with every operand at every value, gives the command back (R40, R42). -/
def Obligations.DecodeInvertsEncode : Prop :=
  ∀ i : Instr, decode (encode i) = .ok i

/-- A word that decodes to a command is that command's one word: no two words stand for one command, and no bit of a legal
word goes unread (R44). -/
def Obligations.LegalWordIsItsCommandsWord : Prop :=
  ∀ (w : Word) (i : Instr), decode w = .ok i → encode i = w

/-- R40 and R39: `w` is the command of a row exactly when `w & mask == match`, its operand is the row's field of `w` as it
stands, and at most one row matches. -/
def Obligations.RowIsMaskAndMatch : Prop :=
  (∀ (w : Word) (i : Instr), decode w = .ok i ↔
    w &&& i.format.mask = i.matchWord ∧
    i.imm16Field.toNat = (if i.format = .v then w.toNat % 65536 else 0) ∧
    i.idxField.toNat = (if i.format = .i then w.toNat / 65536 % 16 else 0)) ∧
  (∀ (w : Word) (i j : Instr), w &&& i.format.mask = i.matchWord → w &&& j.format.mask = j.matchWord →
    i.opcode = j.opcode)

/-- R41: a word is illegal exactly when its opcode is reserved or a must-be-zero bit of its format is set, and an illegal word,
once accepted, sets `IL` and changes nothing else; the all-zero and the all-ones word are illegal. -/
def Obligations.IllegalWords : Prop :=
  (∀ w : Word, (∃ r, decode w = .error r) ↔
    w.toNat / 2 ^ 28 ∈ [0x0, 0xE, 0xF] ∨
    w.toNat / 2 ^ 20 % 256 ≠ 0 ∨
    (w.toNat / 2 ^ 28 ∈ [0x1, 0x3, 0x4, 0xB, 0x5, 0x6, 0x7, 0x8, 0x9, 0xA, 0xC, 0xD] ∧ w.toNat / 2 ^ 16 % 16 ≠ 0) ∨
    (w.toNat / 2 ^ 28 ∈ [0x2, 0x5, 0x6, 0x7, 0x8, 0x9, 0xA, 0xC, 0xD] ∧ w.toNat % 65536 ≠ 0)) ∧
  (∀ (w : Word) (r : IllegalReason) (s : State), decode w = .error r →
    acceptWord w s = .next { s with status := s.status ||| 0b0100#4 }) ∧
  (∃ r, decode 0x00000000#32 = .error r) ∧ (∃ r, decode 0xFFFFFFFF#32 = .error r)

/-- R42 (the sentence on the word) and R38: the word of a command is `op << 28 | idx << 16 | imm16` with absent fields 0, as one
number; bits 27:20 are 0. -/
def Obligations.WordIsSumOfFields : Prop :=
  ∀ i : Instr, (encode i).toNat = i.opcode.toNat * 2 ^ 28 + i.idxField.toNat * 2 ^ 16 + i.imm16Field.toNat

/-- R42 (the sentence on ranges): a numeral outside its field's range is an assembly error, not a truncation, for every source
command with an operand; one inside it gives the words of the expansion. -/
def Obligations.AssemblyRejectsOutOfRangeOperands : Prop :=
  (∀ n, 65536 ≤ n → (Source.ldx n).assemble = none ∧ (Source.ldy n).assemble = none ∧ (Source.lda n).assemble = none ∧
    (Source.frc n).assemble = none ∧ (Source.esti n).assemble = none) ∧
  (∀ n, 16 ≤ n → (Source.ldxp n).assemble = none ∧ (Source.iter n).assemble = none) ∧
  (∀ v : Half, (Source.ldx v.toNat).assemble = some [encode (.ldx v)] ∧
    (Source.ldy v.toNat).assemble = some [encode (.ldy v)] ∧ (Source.lda v.toNat).assemble = some [encode (.lda v)] ∧
    (Source.frc v.toNat).assemble = some [encode (.frc v)] ∧
    (Source.esti v.toNat).assemble = some [encode (.ldx v), encode .est]) ∧
  (∀ k : Nibble, (Source.ldxp k.toNat).assemble = some [encode (.ldxp k)] ∧
    (Source.iter k.toNat).assemble =
      some [encode (.ldxp k), encode .est, encode .ldg, encode .err, encode .emit])

/-- R43: each pseudo-command stands for its sequence; the effect of `SWP` equals `ITER 0 ; ... ; ITER 15`; `EST` is not `ESTM`,
since on input 0 the two differ. -/
def Obligations.PseudoCommands : Prop :=
  (∀ v : Half, (Source.esti v.toNat).expand = [.ldx v, .est]) ∧
  (∀ k : Nibble, (Source.iter k.toNat).expand = [.ldxp k, .est, .ldg, .err, .emit]) ∧
  Source.estm.expand = [.red, .seed, .nr, .nr, .nr] ∧
  (∀ s, exec .swp s = execAll ((List.range 16).flatMap fun k => (Source.iter k).expand) s) ∧
  (∀ s t u, s.x = 0#16 → exec .est s = .next t → execAll Source.estm.expand s = .next u →
    t.flag .zs = true ∧ u.flag .zs = s.flag .zs ∧ t.n = s.n ∧ u.n = 1#4)

/-! ## Operand loads (40_load.md) -/

/-- R45 and R47: `LDX` and `LDY` write their register and nothing else, for every operand; their words. -/
def Obligations.LoadInputAndEstimate : Prop :=
  ∀ (imm16 : Half) (s : State),
    exec (.ldx imm16) s = .next { s with x := imm16 } ∧ encode (.ldx imm16) = 0x10000000#32 ||| imm16.toWord ∧
    exec (.ldy imm16) s = .next { s with y := imm16 } ∧ encode (.ldy imm16) = 0x30000000#32 ||| imm16.toWord

/-- R48 (operands, encoding, pseudocode): `LDA` writes `A` and nothing else. -/
def Obligations.LoadReference : Prop :=
  ∀ (imm16 : Half) (s : State),
    exec (.lda imm16) s = .next { s with a := imm16 } ∧ encode (.lda imm16) = 0x40000000#32 ||| imm16.toWord

/-- R46: `LDXP` writes `I` and the power of two in `X`, which is between 1 and 32768, and nothing else. -/
def Obligations.LoadExponent : Prop :=
  ∀ (idx : Nibble) (s : State),
    exec (.ldxp idx) s = .next { s with i := idx, x := BitVec.ofNat 16 (2 ^ idx.toNat) } ∧
    (BitVec.ofNat 16 (2 ^ idx.toNat)).toNat = 2 ^ idx.toNat ∧ 1 ≤ 2 ^ idx.toNat ∧ 2 ^ idx.toNat ≤ 32768 ∧
    encode (.ldxp idx) = 0x20000000#32 ||| idx.toWord <<< 16

/-- R49: `LDG` writes `A` with the golden word at index `I`, whatever `X` is, and nothing else; the two pinned entries are the
source's; and no command of the estimate path reads `A` or the golden ROM. -/
def Obligations.LoadGoldenReference : Prop :=
  (∀ s : State, exec .ldg s = .next { s with a := Config.gold.get s.i.toFin }) ∧
  encode .ldg = 0x50000000#32 ∧
  (∀ s : State, s.i = 15#4 → exec .ldg s = .next { s with a := 362#16 }) ∧
  (∀ s : State, s.i = 0#4 → exec .ldg s = .next { s with a := 65535#16 }) ∧
  (∀ (i : Instr) (s t : State) (v : Half), i ∈ [.red, .seed, .nr, .est] → exec i s = .next t →
    exec i { s with a := v } = .next { t with a := v }) ∧
  (∀ (p : Params) (g : Rom) (s : State), lookUpSeed { p with gold := g } s = lookUpSeed p s ∧
    newton { p with gold := g } s = newton p s ∧ estimate { p with gold := g } s = estimate p s)

/-! ## Range reduction (41_range_reduce.md) -/

/-- R50: `RED` takes the least number `k` of steps `w <- (w + 2) / 4` that brings `X` to at most 15, clamps 0 to 1, writes the
result in `N` and `k` in `S`, and writes nothing else. -/
def Obligations.RangeReduction : Prop :=
  encode .red = 0x60000000#32 ∧
  ∀ s : State, ∃ (k : Nat) (n sc : Nibble),
    exec .red s = .next { s with n := n, s := sc } ∧
    (∀ j < k, 15 < (fun w : Nat => (w + 2) / 4)^[j] s.x.toNat) ∧
    (fun w : Nat => (w + 2) / 4)^[k] s.x.toNat ≤ 15 ∧
    n.toNat = max 1 ((fun w : Nat => (w + 2) / 4)^[k] s.x.toNat) ∧
    sc.toNat = k

/-- R51 (c), (d), (e): the bounds of `N` and `S`, `S` as a function of `X`, and both for the powers of two. -/
def Obligations.RangeReductionProperties : Prop :=
  (∀ x : Half, 1 ≤ (rangeReduce x).1.toNat ∧ (rangeReduce x).1.toNat ≤ 15 ∧ (rangeReduce x).2.toNat ≤ 7) ∧
  (∀ x : Half, (rangeReduce x).2.toNat =
    if x.toNat ≤ 15 then 0 else if x.toNat ≤ 61 then 1 else if x.toNat ≤ 245 then 2 else if x.toNat ≤ 981 then 3
    else if x.toNat ≤ 3925 then 4 else if x.toNat ≤ 15701 then 5 else if x.toNat ≤ 62805 then 6 else 7) ∧
  (∀ i : Nat, i ≤ 15 →
    ((rangeReduce (BitVec.ofNat 16 (2 ^ i))).1.toNat, (rangeReduce (BitVec.ofNat 16 (2 ^ i))).2.toNat) =
      if i ≤ 3 then (2 ^ i, 0) else if i % 2 = 0 then (4, (i - 2) / 2) else (8, (i - 3) / 2))

/-! ## Seed look-up (42_seed.md, 20_memory.md) -/

/-- R52: `SEED` writes `Y` with the seed word at index `N`, shifted right by `S` with the bits shifted out discarded, and nothing
else; for `S = 0` the word unchanged. That `Y` is at most 511 for `S = 7` is a passage R52 marks as derived (log entry 16). -/
def Obligations.SeedLookUp : Prop :=
  encode .seed = 0x70000000#32 ∧
  ∀ s : State, ∃ y : Half,
    exec .seed s = .next { s with y := y } ∧
    y.toNat = (Config.seed.get s.n.toFin).toNat / 2 ^ s.s.toNat ∧
    (s.s = 0#4 → y = Config.seed.get s.n.toFin) ∧ (s.s = 7#4 → y.toNat ≤ 511)

/-- R28: the seed entry at index 0 is read by no command, in a state with `N >= 1` (which R12 makes every reachable one); for
`EST` and `SWP`, which reduce first, in any state. -/
def Obligations.SeedEntryZeroIsNeverRead : Prop :=
  ∀ (p : Params) (v : Half) (s : State),
    (1 ≤ s.n.toNat → lookUpSeed { p with seed := p.seed.set 0 v } s = lookUpSeed p s) ∧
    estimate { p with seed := p.seed.set 0 v } s = estimate p s ∧
    sweep { p with seed := p.seed.set 0 v } s = sweep p s

/-! ## Newton-Raphson (43_newton.md, 00_scope.md) -/

/-- R53: `NR` in exact integers. Where `X * ((Y*Y) >> 16)` is at most `3 << 16` it writes the low 16 bits of the four steps' result
in `Y` and nothing else; otherwise it sets `UF`, leaves some value in `Y`, and completes. The count of draws is the model's own
(log entry 2). -/
def Obligations.NewtonIteration : Prop :=
  encode .nr = 0x80000000#32 ∧
  ∀ s : State,
    (s.x.toNat * (s.y.toNat * s.y.toNat / 2 ^ 16) ≤ 3 * 2 ^ 16 →
      ∃ v, v = (3 * 2 ^ 16 - s.x.toNat * (s.y.toNat * s.y.toNat / 2 ^ 16)) / 2 ^ 2 * s.y.toNat / 2 ^ 15 ∧
        exec .nr s = .next { s with y := BitVec.ofNat 16 v }) ∧
    (3 * 2 ^ 16 < s.x.toNat * (s.y.toNat * s.y.toNat / 2 ^ 16) →
      ∃ (any16 : Half) (draws : Nat),
        exec .nr s = .next { s with y := any16, status := s.status ||| 0b0001#4, draws := draws })

/-- R3: no temporary of any rule wraps in 32 bits: each function of the datapath has the value of its exact arithmetic, beside the
bound that R3 gives each product and sum. The reducer's working value stays within 16 bits, so that its sum is at most 65537;
`y2`, `p`, `t`, `q` and the result of `NR`; the product and quotient of `ERR`; the product of `FRC`. -/
def Obligations.TemporariesNeverWrap : Prop :=
  (∀ w : Word, w.toNat ≤ 65535 → (reduceStep w).toNat = (w.toNat + 2) / 4 ∧ w.toNat + 2 ≤ 65537) ∧
  (∀ (x : Half) (k : Nat), (reduceStep^[k] x.toWord).toNat ≤ 65535) ∧
  (∀ y : Half, (newtonSquare y).toNat = y.toNat * y.toNat / 65536 ∧ y.toNat * y.toNat ≤ 4294836225 ∧
    (newtonSquare y).toNat ≤ 65534) ∧
  (∀ x y : Half, (newtonProduct x y).toNat = x.toNat * (y.toNat * y.toNat / 65536) ∧
    (newtonProduct x y).toNat ≤ 4294770690) ∧
  (∀ x y : Half, NewtonSafe x y → ∃ t q : Nat,
    t = 196608 - x.toNat * (y.toNat * y.toNat / 65536) ∧ (threeQ16 - newtonProduct x y).toNat = t ∧
    q = t / 4 ∧ ((threeQ16 - newtonProduct x y) >>> 2).toNat = q ∧ q ≤ 49152 ∧
    q * y.toNat ≤ 3221176320 ∧ (newtonWide x y).toNat = q * y.toNat / 32768) ∧
  (∀ d a : Half, (relativeError d a).toNat = d.toNat * 10000 / a.toNat ∧ d.toNat * 10000 ≤ 655350000) ∧
  (∀ v : Half, (frac4 v).toNat = v.toNat * 10000 / 65536 ∧ v.toNat * 10000 ≤ 655350000)

/-- R54 (a), (b): without an underflow the truncation of step 4 discards a non-zero bit exactly for `X = 0` and `Y >= 43691`, and
the untruncated result is at most `floor(1.5 * Y)`. -/
def Obligations.NewtonTruncationOnlyForInputZero : Prop :=
  ∀ x y : Half, NewtonSafe x y →
    (65535 < (newtonWide x y).toNat ↔ x = 0#16 ∧ 43691 ≤ y.toNat) ∧ (newtonWide x y).toNat ≤ 3 * y.toNat / 2

/-! ## The estimate (44_estimate.md) -/

/-- R55 and R56: `EST` on input 0 writes the sentinel and sets `ZS`; on any other input it clears `ZS` and then does `RED`, `SEED` and
exactly three `NR`. -/
def Obligations.EstimateIsSentinelOrThreeIterations : Prop :=
  encode .est = 0x90000000#32 ∧
  (∀ s : State, s.x = 0#16 → exec .est s = .next { s with y := 65535#16, status := s.status ||| 0b1000#4 }) ∧
  (∀ s : State, s.x ≠ 0#16 → ∃ t, exec .est s = .next t ∧
    execAll [.red, .seed, .nr, .nr, .nr] { s with status := s.status &&& 0b0111#4 } = .next t)

/-- R55 (corner cases): for a non-zero input `EST` and the pseudo-command `ESTM` agree on `X N S Y UF`, and `EST` alone clears `ZS`. -/
def Obligations.EstimateAgreesWithPrimitivePath : Prop :=
  ∀ s : State, s.x ≠ 0#16 → ∃ t u, exec .est s = .next t ∧ execAll Source.estm.expand s = .next u ∧
    AgreeOnEstimate t u ∧ t.flag .zs = false ∧ u.flag .zs = s.flag .zs

/-- R55 (corner cases): with the reference seeds no input makes `EST` underflow, so no free value is drawn and `UF` stays as it
was; the statement is for every content of the golden ROM and every draw. The clause on `draws` is about the model's own counter
(log entry 2): that it stands still says that no free value was drawn. -/
def Obligations.ReferenceSeedsNeverUnderflow : Prop :=
  ∀ (p : Params) (s : State), p.seed = Config.seedRef → s.x ≠ 0#16 →
    (estimate p s).flag .uf = s.flag .uf ∧ (estimate p s).draws = s.draws

/-! ## Error computation (45_error.md) -/

/-- R57: `ERR` in exact integers: `D` is the absolute difference of `A` and `Y`; against a reference other than 0, `E` is
`D * 10000 / A` truncated and `STATUS` is unchanged; against 0, `E` is all ones and `DZ` is set; nothing else is written. -/
def Obligations.ErrorOfEstimate : Prop :=
  encode .err = 0xA0000000#32 ∧
  ∀ s : State, ∃ d : Half, d.toNat = max s.a.toNat s.y.toNat - min s.a.toNat s.y.toNat ∧
    (s.a ≠ 0#16 → exec .err s = .next { s with d := d, e := BitVec.ofNat 32 (d.toNat * 10000 / s.a.toNat) } ∧
      d.toNat * 10000 / s.a.toNat < 2 ^ 32) ∧
    (s.a = 0#16 → exec .err s = .next { s with d := d, e := 0xFFFFFFFF#32, status := s.status ||| 0b0010#4 })

/-- R58: `FRC` writes `F` with `imm16 * 10000 / 65536` truncated, which is at most 9999, and nothing else. -/
def Obligations.FractionOfRawValue : Prop :=
  ∀ (imm16 : Half) (s : State), ∃ f : Half,
    exec (.frc imm16) s = .next { s with f := f } ∧ f.toNat = imm16.toNat * 10000 / 65536 ∧ f.toNat ≤ 9999 ∧
    f = frac4 imm16 ∧ encode (.frc imm16) = 0xB0000000#32 ||| imm16.toWord

/-! ## Report and sweep (46_report.md) -/

/-- R59: `EMIT` appends the snapshot of `X Y A D E` to `OUT` and writes nothing else. -/
def Obligations.EmitAppendsSnapshot : Prop :=
  encode .emit = 0xC0000000#32 ∧
  ∀ s : State, exec .emit s =
    .next { s with out := s.out ++ [{ arg := s.x, res := s.y, ans := s.a, diff := s.d, rel := s.e }] }

/-- R61: `SWP` completes, and its effect is exactly that of the eighty commands of its expansion issued one after another. -/
def Obligations.SweepIsEightyCommands : Prop :=
  sweepCommands.length = 80 ∧
  ∀ s : State, ∃ t, exec .swp s = .next t ∧ execAll sweepCommands s = .next t

/-- R62: one `SWP` appends sixteen records, in increasing `arg`: 1, 2, 4, ..., 32768. -/
def Obligations.SweepReportsInOrder : Prop :=
  ∀ s : State, ∃ t records, exec .swp s = .next t ∧ t.out = s.out ++ records ∧
    records.map (fun r => r.arg.toNat) = [1, 2, 4, 8, 16, 32, 64, 128, 256, 512, 1024, 2048, 4096, 8192, 16384, 32768]

/-- R61 (flags and corner cases): the state after `SWP`, what it keeps, and what its records hold. -/
def Obligations.StateAfterSweep : Prop :=
  ∀ s : State, ∃ t records, exec .swp s = .next t ∧ t.out = s.out ++ records ∧
    t.i = 15#4 ∧ t.x = 32768#16 ∧ t.n = 8#4 ∧ t.s = 6#4 ∧ t.a = 362#16 ∧ t.f = s.f ∧
    t.flag .zs = false ∧ t.flag .il = s.flag .il ∧
    (s.flag .uf = true → t.flag .uf = true) ∧ (s.flag .dz = true → t.flag .dz = true) ∧
    records.map Record.ans = Config.gold.toList ∧ (∀ r ∈ records, RecordConsistent r) ∧
    records.getLast? = some { arg := t.x, res := t.y, ans := t.a, diff := t.d, rel := t.e }

/-- R61 (corner cases): the sixteen records depend on the two ROMs alone, whatever the state before and whatever the draws would be
(log entry 2), as long as no underflow occurs in the sweep, the premise that R65 asks of a claim about estimates. -/
def Obligations.SweepRecordsDependOnRomsAlone : Prop :=
  ∀ (p q : Params) (s u : State), p.seed = q.seed → p.gold = q.gold →
    (sweep p s).flag .uf = false → newRecords s (sweep p s) = newRecords u (sweep q u)

/-- R61 (corner cases): of the seed ROM the sweep reads the entries 1, 2, 4 and 8 only. -/
def Obligations.SweepReadsFourSeeds : Prop :=
  ∀ (p q : Params) (s : State),
    (∀ k ∈ [1#4, 2#4, 4#4, 8#4], romRead p.seed k = romRead q.seed k) → p.gold = q.gold →
    p.nrUfValue = q.nrUfValue → sweep p s = sweep q s

/-- R61 at the command port: from a block with no input pending, one step of the word of `SWP` leads where eighty steps of the
eighty words of its expansion lead. -/
def Obligations.SweepStepRefinesEightySteps : Prop :=
  ∀ s : State, s.host = [] → ∃ t : State,
    Host.Core.run Sys2Proof.core 1 (s.issue [0xD0000000#32]) = .next t ∧
    Host.Core.run Sys2Proof.core 80 (s.issue (sweepCommands.map encode)) = .next t

/-- R60: `frac4` is at most 9999; a decimal numeral is ASCII decimal digits that write its number, with no leading zero; `dec4`
writes its number in ASCII decimal digits, in exactly four for a number up to 9999 and otherwise as the full numeral with no digit
lost and none added; the argument is written with no padding; a line holds the texts of argument, result, answer and relative
error in that order, each fraction as `0.` and its digits; `diff` is not printed, so records that differ in it alone give one
line. -/
def Obligations.NumbersAsText : Prop :=
  (∀ v : Half, (frac4 v).toNat ≤ 9999) ∧
  (∀ k : Nat, (∀ b ∈ decimal k, IsDigitByte b) ∧ digitsNumber (decimal k) = k ∧
    ((decimal k).length = 1 ∨ 10 ^ ((decimal k).length - 1) ≤ k)) ∧
  (∀ k : Nat, (∀ b ∈ dec4 k, IsDigitByte b) ∧ digitsNumber (dec4 k) = k ∧
    (k ≤ 9999 → (dec4 k).length = 4) ∧ (9999 < k → dec4 k = decimal k)) ∧
  (∀ r : Record, argText r = decimal r.arg.toNat ∧
    resText r = [0x30#8, 0x2E#8] ++ dec4 (frac4 r.res).toNat ∧ ansText r = [0x30#8, 0x2E#8] ++ dec4 (frac4 r.ans).toNat ∧
    relText r = [0x30#8, 0x2E#8] ++ dec4 r.rel.toNat ∧
    ∃ a b c d e, lineText r = a ++ argText r ++ b ++ resText r ++ c ++ ansText r ++ d ++ relText r ++ e) ∧
  (∀ (r : Record) (d : Half), lineText { r with diff := d } = lineText r)

/-! ## The machine -/

/-- A word at the front of the host's inputs that decodes to a command is taken from there and that command is run (R83). -/
def Obligations.StepRunsDecodedCommand : Prop :=
  ∀ (s : State) (w : Word) (rest : List HostInput) (i : Instr),
    s.host = .command w :: rest → decode w = .ok i → step s = exec i { s with host := rest }

/-- R67: an illegal word sets `IL`; no register, no other flag and no record changes; the word is consumed. -/
def Obligations.IllegalWordSetsOnlyIL : Prop :=
  ∀ (s : State) (w : Word) (rest : List HostInput) (r : IllegalReason),
    s.host = .command w :: rest → decode w = .error r →
    step s = .next { s with host := rest, status := s.status ||| 0b0100#4 }

/-- R77: between commands the block is idle and holds its state. -/
def Obligations.IdleBlockHoldsItsState : Prop :=
  ∀ s : State, s.host = [] → step s = .next s

/-- R83 and R34: words issued to a block with no input pending run one at a time, in the order issued, one step each, and then
the block is idle again. -/
def Obligations.WordsRunInIssueOrder : Prop :=
  ∀ (words : List Word) (s : State), s.host = [] → ∃ t : State,
    acceptAll words s = .next t ∧ t.host = [] ∧ Host.Core.run Sys2Proof.core words.length (s.issue words) = .next t

/-- R63 and R91: nothing stops the block: in every state a step answers a next state. For `EMIT` and `SWP` R91 has a proviso, "the
sink keeps its duty (rule R85)": the model assumes that duty (log entry 7), and the statement rests on it. That the step takes
one input off the host's list is about the model's own field (log entry 3). -/
def Obligations.EveryStepCompletes : Prop :=
  ∀ s : State, ∃ t, step s = .next t ∧ t.host = s.host.tail

/-- R23: the state after power-on and after a reset of an idle block. -/
def Obligations.ResetState : Prop :=
  HasResetRegisters State.reset ∧ State.reset.out = [] ∧
  ∀ (s : State) (rest : List HostInput), s.host = .reset :: rest →
    ∃ t, step s = .next t ∧ HasResetRegisters t ∧ t.out = s.out

/-- R80: a reset between or during commands leaves the reset state, and no command clears a sticky flag, so reset is the only way
to. Of the records that a command cut short was going to append R80 says all or none of each; that those which are there are the
first ones is U8 as the model reads it (log entry 6), and the inputs that bring a reset about are the model's own (log entry 3). -/
def Obligations.ResetDuringCommand : Prop :=
  (∀ (s : State) (rest : List HostInput), s.host = .reset :: rest →
    ∃ t, step s = .next t ∧ HasResetRegisters t ∧ t.out = s.out) ∧
  (∀ (s : State) (w : Word) (rest : List HostInput), s.host = .commandCutByReset w :: rest →
    ∃ t u records k, step s = .next t ∧ HasResetRegisters t ∧ acceptWord w { s with host := rest } = .next u ∧
      u.out = s.out ++ records ∧ t.out = s.out ++ records.take k) ∧
  (∀ (i : Instr) (s t : State) (f : Flag), flagSticky f = true → exec i s = .next t → s.flag f = true → t.flag f = true)

/-- R18: a sticky bit, once 1, stays 1 until a reset, along every step. -/
def Obligations.StickyFlagsStay : Prop :=
  ∀ (s t : State) (f : Flag), flagSticky f = true → s.flag f = true → step s = .next t →
    (∃ rest, s.host = .reset :: rest) ∨ (∃ w rest, s.host = .commandCutByReset w :: rest) ∨ t.flag f = true

/-- R18 and R68: which commands write which bit of `STATUS`, and what `NR`, `ERR` and `EST` write there. -/
def Obligations.FlagWriters : Prop :=
  ∀ (i : Instr) (s t : State), exec i s = .next t →
    t.flag .il = s.flag .il ∧
    (i ∉ [.nr, .est, .swp] → t.flag .uf = s.flag .uf) ∧
    (i ∉ [.err, .swp] → t.flag .dz = s.flag .dz) ∧
    (i ∉ [.est, .swp] → t.flag .zs = s.flag .zs) ∧
    (i = .nr → (t.flag .uf = true ↔ s.flag .uf = true ∨ ¬ NewtonSafe s.x s.y)) ∧
    (i = .err → (t.flag .dz = true ↔ s.flag .dz = true ∨ s.a = 0#16)) ∧
    (i = .est → (t.flag .zs = true ↔ s.x = 0#16)) ∧
    (i = .swp → t.flag .zs = false)

/-- R11 (the column "written by"): a command writes only the registers its rule names; every other register keeps its value. -/
def Obligations.RegisterWriters : Prop :=
  ∀ (i : Instr) (s t : State), exec i s = .next t →
    ((∀ v, i ≠ .ldx v) → (∀ v, i ≠ .ldxp v) → i ≠ .swp → t.x = s.x) ∧
    (i ∉ [.red, .est, .swp] → t.n = s.n ∧ t.s = s.s) ∧
    ((∀ v, i ≠ .ldy v) → i ∉ [.seed, .nr, .est, .swp] → t.y = s.y) ∧
    ((∀ v, i ≠ .lda v) → i ∉ [.ldg, .swp] → t.a = s.a) ∧
    (i ∉ [.err, .swp] → t.d = s.d ∧ t.e = s.e) ∧
    ((∀ v, i ≠ .frc v) → t.f = s.f) ∧
    ((∀ v, i ≠ .ldxp v) → i ≠ .swp → t.i = s.i) ∧
    (i ∉ [.emit, .swp] → t.out = s.out) ∧
    t.host = s.host

/-- R12 at power-on. -/
def Obligations.InvariantAtReset : Prop := State.reset.Inv

/-- R12: every step keeps `1 <= N <= 15` and `0 <= S <= 7`. -/
def Obligations.StepKeepsInvariant : Prop :=
  ∀ s t : State, s.Inv → step s = .next t → t.Inv

/-- R20 and R23: along every step, a reset included, `OUT` only grows at its end: nothing removes or changes a record; and a command
appends one record (`EMIT`), sixteen (`SWP`) or none. -/
def Obligations.OutputOnlyGrows : Prop :=
  (∀ s t : State, step s = .next t → ∃ records, t.out = s.out ++ records) ∧
  (∀ (i : Instr) (s : State), ∃ t records, exec i s = .next t ∧ t.out = s.out ++ records ∧
    records.length = if i = .emit then 1 else if i = .swp then 16 else 0)

/-- R18, R20 and R11 (the column "read by"): no command reads `STATUS`, `OUT` or `F`: in two states that agree on the other registers,
a command leaves the same registers and appends the same records. `AgreeOnOperands` holds the model's draw counts equal too, and
that the two `Y` after an underflow agree is an artefact of that (log entry 2): the spec's draws are fresh values. -/
def Obligations.CommandsIgnoreStatusOutAndF : Prop :=
  ∀ (i : Instr) (s u : State), AgreeOnOperands s u → ∃ t v, exec i s = .next t ∧ exec i u = .next v ∧
    AgreeOnOperands t v ∧ newRecords s t = newRecords u v ∧ (s.f = u.f → t.f = v.f) ∧
    (s.status = u.status → t.status = v.status)

/-- R92 and R23: a run is reset followed by command words, so what is observable at its end does not depend on the state before the
reset: not on its registers, its flags or its records. The draws are held equal, since each draw is a fresh value (log entry 2). -/
def Obligations.RunObservationForgetsThePast : Prop :=
  ∀ (words : List Word) (s u : State), s.draws = u.draws → ∃ t v,
    runFromReset words s = .next t ∧ runFromReset words u = .next v ∧ observation s t = observation u v

/-- R14 and R18: the host's read of `STATUS` has bits 31:4 zero and a flag at each of bits 0 to 3; its read of a register is the
register's value. The spec gives a 32-bit read for `STATUS` only: that the read of every other register is 32 bits wide and
zero-extended is the model's reading (log entry 13). -/
def Obligations.HostReads : Prop :=
  ∀ s : State,
    (hostRead .status s).toNat < 16 ∧
    (hostRead .status s).getLsbD 0 = s.flag .uf ∧ (hostRead .status s).getLsbD 1 = s.flag .dz ∧
    (hostRead .status s).getLsbD 2 = s.flag .il ∧ (hostRead .status s).getLsbD 3 = s.flag .zs ∧
    (hostRead .x s).toNat = s.x.toNat ∧ (hostRead .n s).toNat = s.n.toNat ∧ (hostRead .s s).toNat = s.s.toNat ∧
    (hostRead .y s).toNat = s.y.toNat ∧ (hostRead .a s).toNat = s.a.toNat ∧ (hostRead .d s).toNat = s.d.toNat ∧
    (hostRead .e s).toNat = s.e.toNat ∧ (hostRead .f s).toNat = s.f.toNat ∧ (hostRead .i s).toNat = s.i.toNat

/-- A byte string that neither starts nor ends with an ASCII decimal digit. -/
def NoDigitAtEnds (l : List Byte) : Prop := (∀ b ∈ l.head?, ¬ IsDigitByte b) ∧ ∀ b ∈ l.getLast?, ¬ IsDigitByte b

/-- R60 and N6, as log entry 15 reads them: five texts that are the same for every record stand around the four numbers of every
line; none of them brings a digit next to a number, and the first does not end in a sign (`0x2B`, `0x2D`). That the template's own text
does not vary with the record is the model's choice (log entry 15). -/
def Obligations.LinesDifferInNumbersOnly : Prop :=
  ∃ a b c d e : List Byte,
    (∀ r : Record, lineText r = a ++ argText r ++ b ++ resText r ++ c ++ ansText r ++ d ++ relText r ++ e) ∧
    (∀ x ∈ a.getLast?, ¬ IsDigitByte x ∧ x ≠ 0x2B#8 ∧ x ≠ 0x2D#8) ∧
    NoDigitAtEnds b ∧ NoDigitAtEnds c ∧ NoDigitAtEnds d ∧ (∀ x ∈ e.head?, ¬ IsDigitByte x)

/-- R92 and R20, as a relation that every step keeps: two states that differ in the records in `OUT` alone answer next states that
again differ in them alone, and both steps append the same records, whatever the host does next (a command word, legal or not, a
reset, or a command cut short by one). The draw counts are held equal, since each draw is a fresh value (log entry 2); that
they also fix how many records a cut command leaves is the model's form of it (log entry 6). -/
def Obligations.StepIgnoresEarlierRecords : Prop :=
  ∀ s u : State, AgreeOnOperands s u → s.f = u.f → s.status = u.status → s.host = u.host →
    ∃ t v, step s = .next t ∧ step u = .next v ∧
      AgreeOnOperands t v ∧ t.f = v.f ∧ t.status = v.status ∧ t.host = v.host ∧ newRecords s t = newRecords u v
end

