-- ==== Sys2Proof/Laws/Datapath.lean ====
section
/-!
SUPPORT. The arithmetic of the four units in exact integers (00_scope.md R1 to R9): each function of `Machine/Datapath.lean`
read through `toNat`, once.
-/

namespace Sys2Proof.Machine

@[simp] theorem toNat_toWord (h : Half) : h.toWord.toNat = h.toNat := by
  simp only [Half.toWord, BitVec.toNat_setWidth]
  exact Nat.mod_eq_of_lt (by have := h.isLt; omega)

@[simp] theorem toNat_nibble_toWord (h : Nibble) : h.toWord.toNat = h.toNat := by
  simp only [Nibble.toWord, BitVec.toNat_setWidth]
  exact Nat.mod_eq_of_lt (by have := h.isLt; omega)

/-! ## Range reduction -/

/-- One reduction step in exact integers, where the sum cannot wrap (R50). -/
theorem toNat_reduceStep (w : Word) (h : w.toNat ≤ 65535) : (reduceStep w).toNat = (w.toNat + 2) / 4 := by
  simp only [reduceStep, BitVec.toNat_ushiftRight, BitVec.toNat_add, BitVec.toNat_ofNat, Nat.shiftRight_eq_div_pow]
  omega

theorem needsReduction_iff (w : Word) : needsReduction w = true ↔ 15 < w.toNat := by
  simp [needsReduction, BitVec.lt_def]

/-- Everything the loop can do: it makes `k` steps from `w`, each from a value above 15, adds `k` to the count, and stops at a
value of at most 15 unless its bound is spent. -/
theorem reduceLoop_spec (fuel : Nat) (w c : Word) :
    ∃ k ≤ fuel, reduceLoop fuel w c = (reduceStep^[k] w, c + BitVec.ofNat 32 k) ∧
      (∀ j < k, needsReduction (reduceStep^[j] w) = true) ∧
      (needsReduction (reduceStep^[k] w) = true → k = fuel) := by
  induction fuel generalizing w c with
  | zero => exact ⟨0, le_rfl, by simp [reduceLoop], by simp, by simp⟩
  | succ fuel ih =>
    by_cases hw : needsReduction w = true
    · obtain ⟨k, hk, heq, hall, hend⟩ := ih (reduceStep w) (c + 1#32)
      refine ⟨k + 1, by omega, ?_, ?_, ?_⟩
      · simp only [reduceLoop, hw, if_true, heq, Function.iterate_succ_apply, Prod.mk.injEq, true_and]
        rw [BitVec.add_assoc, BitVec.ofNat_add, BitVec.add_comm 1#32]
      · intro j hj
        cases j with
        | zero => exact hw
        | succ j => exact hall j (by omega)
      · intro h
        have := hend h
        omega
    · exact ⟨0, by omega, by simp [reduceLoop, hw], by simp, fun h => absurd h hw⟩

/-- An exact reduction step keeps a 16-bit working value 16 bits wide. -/
theorem toNat_iterate_reduceStep (k : Nat) (w : Word) (h : w.toNat ≤ 65535) :
    (reduceStep^[k] w).toNat = (fun m : Nat => (m + 2) / 4)^[k] w.toNat ∧
      (reduceStep^[k] w).toNat ≤ 65535 := by
  induction k with
  | zero => exact ⟨rfl, h⟩
  | succ k ih =>
    rw [Function.iterate_succ_apply', Function.iterate_succ_apply', toNat_reduceStep _ ih.2, ih.1]
    exact ⟨rfl, by have := ih.2; rw [ih.1] at this; omega⟩

/-- Seven steps bring every 16-bit value to at most 15 (R51 (c)), so the bound of the loop is never why it ends. -/
theorem iterate_seven_le (m : Nat) (h : m ≤ 65535) : (fun m : Nat => (m + 2) / 4)^[7] m ≤ 15 := by
  simp only [Function.iterate_succ_apply, Function.iterate_zero_apply]
  omega

/-! ## Newton-Raphson -/

theorem toNat_newtonSquare (y : Half) : (newtonSquare y).toNat = y.toNat * y.toNat / 65536 := by
  have hy := y.isLt
  have hyy : y.toNat * y.toNat ≤ 65535 * 65535 := Nat.mul_le_mul (by omega) (by omega)
  simp only [newtonSquare, BitVec.toNat_ushiftRight, BitVec.toNat_mul, toNat_toWord, Nat.shiftRight_eq_div_pow]
  rw [Nat.mod_eq_of_lt (by omega)]

theorem newtonSquare_le (y : Half) : (newtonSquare y).toNat ≤ 65534 := by
  have hy := y.isLt
  rw [toNat_newtonSquare]
  have : y.toNat * y.toNat ≤ 65535 * 65535 := Nat.mul_le_mul (by omega) (by omega)
  omega

theorem toNat_newtonProduct (x y : Half) :
    (newtonProduct x y).toNat = x.toNat * (y.toNat * y.toNat / 65536) := by
  have hx := x.isLt
  have hs := newtonSquare_le y
  have hp : x.toNat * (newtonSquare y).toNat ≤ 65535 * 65534 := Nat.mul_le_mul (by omega) hs
  simp only [newtonProduct, BitVec.toNat_mul, toNat_toWord]
  rw [Nat.mod_eq_of_lt (by omega), toNat_newtonSquare]

@[simp] theorem toNat_threeQ16 : threeQ16.toNat = 196608 := rfl

/-- The comparison of step 2 decides the precondition of R86. -/
theorem newtonUnderflows_iff (x y : Half) : newtonUnderflows x y = true ↔ ¬ NewtonSafe x y := by
  simp [newtonUnderflows, BitVec.lt_def, toNat_newtonProduct, NewtonSafe]

/-- The subtraction of step 2 in exact integers, where it does not underflow (R9, R53). -/
theorem toNat_newtonDifference (x y : Half) (h : NewtonSafe x y) :
    (threeQ16 - newtonProduct x y).toNat = 196608 - x.toNat * (y.toNat * y.toNat / 65536) := by
  have hp := toNat_newtonProduct x y
  have hle : newtonProduct x y ≤ threeQ16 := by
    rw [BitVec.le_def, hp, toNat_threeQ16]
    exact h
  rw [BitVec.toNat_sub_of_le hle, toNat_threeQ16, hp]

/-- Steps 3 and 4 in exact integers, from a difference of at most `3 << 16` (R53). -/
theorem toNat_newtonTail (y : Half) (t : Word) (ht : t.toNat ≤ 196608) :
    (((t >>> 2) * y.toWord) >>> 15).toNat = t.toNat / 4 * y.toNat / 32768 := by
  have hy := y.isLt
  have hq : t.toNat / 4 ≤ 49152 := by omega
  have hm := Nat.mul_le_mul hq (show y.toNat ≤ 65535 by omega)
  simp only [BitVec.toNat_ushiftRight, BitVec.toNat_mul, toNat_toWord, Nat.shiftRight_eq_div_pow, Nat.reducePow]
  rw [Nat.mod_eq_of_lt (by omega)]

/-- Steps 2 to 4 in exact integers, where the subtraction does not underflow (R53). -/
theorem toNat_newtonWide (x y : Half) (h : NewtonSafe x y) :
    (newtonWide x y).toNat = (196608 - x.toNat * (y.toNat * y.toNat / 65536)) / 4 * y.toNat / 32768 := by
  have hd := toNat_newtonDifference x y h
  rw [newtonWide, toNat_newtonTail y _ (by omega), hd]

/-! ## Error computation -/

theorem toNat_absDiff (a y : Half) :
    (absDiff a y).toNat = max a.toNat y.toNat - min a.toNat y.toNat := by
  unfold absDiff
  split
  · next h => rw [BitVec.toNat_sub_of_le h]; rw [BitVec.le_def] at h; omega
  · next h =>
    rw [BitVec.le_def] at h
    rw [BitVec.toNat_sub_of_le (by rw [BitVec.le_def]; omega)]; omega

/-- A 16-bit value times 10000 fits 32 bits (R3). -/
theorem toNat_mul_10000 (v : Half) : (v.toWord * 10000#32).toNat = v.toNat * 10000 := by
  have := v.isLt
  simp only [BitVec.toNat_mul, toNat_toWord, BitVec.toNat_ofNat]
  omega

theorem toNat_relativeError (d a : Half) : (relativeError d a).toNat = d.toNat * 10000 / a.toNat := by
  simp only [relativeError, BitVec.toNat_udiv, toNat_mul_10000, toNat_toWord]

theorem toNat_frac4 (v : Half) : (frac4 v).toNat = v.toNat * 10000 / 65536 := by
  have := v.isLt
  simp only [frac4, BitVec.toNat_setWidth, BitVec.toNat_ushiftRight, toNat_mul_10000, Nat.shiftRight_eq_div_pow]
  omega

end Sys2Proof.Machine
end

