-- ==== Sys2Proof/Laws/Decode.lean ====
section
/-!
SUPPORT. The fields of a command word as numbers (30_encoding.md R38), and what each format's decoder accepts (R41).
-/

namespace Sys2Proof

theorem toNat_fieldOp (w : Word) : (fieldOp w).toNat = w.toNat / 2 ^ 28 := by
  have := w.isLt
  simp only [fieldOp, BitVec.extractLsb'_toNat, Nat.shiftRight_eq_div_pow]
  omega

theorem toNat_fieldMbz (w : Word) : (fieldMbz w).toNat = w.toNat / 2 ^ 20 % 256 := by
  simp only [fieldMbz, BitVec.extractLsb'_toNat, Nat.shiftRight_eq_div_pow]

theorem toNat_fieldIdx (w : Word) : (fieldIdx w).toNat = w.toNat / 2 ^ 16 % 16 := by
  simp only [fieldIdx, BitVec.extractLsb'_toNat, Nat.shiftRight_eq_div_pow]

theorem toNat_fieldImm16 (w : Word) : (fieldImm16 w).toNat = w.toNat % 65536 := by
  simp only [fieldImm16, BitVec.extractLsb'_toNat, Nat.shiftRight_eq_div_pow]
  omega

/-- What the Z format accepts. -/
theorem decodeZ_eq_ok_iff (w : Word) (i j : Instr) :
    decodeZ w i = .ok j ↔ fieldMbz w = 0 ∧ fieldIdx w = 0 ∧ fieldImm16 w = 0 ∧ i = j := by
  unfold decodeZ
  split_ifs <;> simp_all

/-- What the V format accepts. -/
theorem decodeV_eq_ok_iff (w : Word) (i : Half → Instr) (j : Instr) :
    decodeV w i = .ok j ↔ fieldMbz w = 0 ∧ fieldIdx w = 0 ∧ i (fieldImm16 w) = j := by
  unfold decodeV
  split_ifs <;> simp_all

/-- What the I format accepts. -/
theorem decodeI_eq_ok_iff (w : Word) (i : Nibble → Instr) (j : Instr) :
    decodeI w i = .ok j ↔ fieldMbz w = 0 ∧ fieldImm16 w = 0 ∧ i (fieldIdx w) = j := by
  unfold decodeI
  split_ifs <;> simp_all

end Sys2Proof
end

