-- ==== Sys2Proof/Laws/State.lean ====
section
/-!
SUPPORT. What a write to one field does to every field, so that no proof unfolds a record update.
-/

namespace Sys2Proof.Machine.State

variable (s : State)

/-! ## `setX` -/

@[simp] theorem setX_x (v : Half) : (s.setX v).x = v := rfl
@[simp] theorem setX_n (v : Half) : (s.setX v).n = s.n := rfl
@[simp] theorem setX_s (v : Half) : (s.setX v).s = s.s := rfl
@[simp] theorem setX_y (v : Half) : (s.setX v).y = s.y := rfl
@[simp] theorem setX_a (v : Half) : (s.setX v).a = s.a := rfl
@[simp] theorem setX_d (v : Half) : (s.setX v).d = s.d := rfl
@[simp] theorem setX_e (v : Half) : (s.setX v).e = s.e := rfl
@[simp] theorem setX_f (v : Half) : (s.setX v).f = s.f := rfl
@[simp] theorem setX_i (v : Half) : (s.setX v).i = s.i := rfl
@[simp] theorem setX_status (v : Half) : (s.setX v).status = s.status := rfl
@[simp] theorem setX_out (v : Half) : (s.setX v).out = s.out := rfl
@[simp] theorem setX_host (v : Half) : (s.setX v).host = s.host := rfl
@[simp] theorem setX_draws (v : Half) : (s.setX v).draws = s.draws := rfl

/-! ## `setN` -/

@[simp] theorem setN_x (v : Nibble) : (s.setN v).x = s.x := rfl
@[simp] theorem setN_n (v : Nibble) : (s.setN v).n = v := rfl
@[simp] theorem setN_s (v : Nibble) : (s.setN v).s = s.s := rfl
@[simp] theorem setN_y (v : Nibble) : (s.setN v).y = s.y := rfl
@[simp] theorem setN_a (v : Nibble) : (s.setN v).a = s.a := rfl
@[simp] theorem setN_d (v : Nibble) : (s.setN v).d = s.d := rfl
@[simp] theorem setN_e (v : Nibble) : (s.setN v).e = s.e := rfl
@[simp] theorem setN_f (v : Nibble) : (s.setN v).f = s.f := rfl
@[simp] theorem setN_i (v : Nibble) : (s.setN v).i = s.i := rfl
@[simp] theorem setN_status (v : Nibble) : (s.setN v).status = s.status := rfl
@[simp] theorem setN_out (v : Nibble) : (s.setN v).out = s.out := rfl
@[simp] theorem setN_host (v : Nibble) : (s.setN v).host = s.host := rfl
@[simp] theorem setN_draws (v : Nibble) : (s.setN v).draws = s.draws := rfl

/-! ## `setS` -/

@[simp] theorem setS_x (v : Nibble) : (s.setS v).x = s.x := rfl
@[simp] theorem setS_n (v : Nibble) : (s.setS v).n = s.n := rfl
@[simp] theorem setS_s (v : Nibble) : (s.setS v).s = v := rfl
@[simp] theorem setS_y (v : Nibble) : (s.setS v).y = s.y := rfl
@[simp] theorem setS_a (v : Nibble) : (s.setS v).a = s.a := rfl
@[simp] theorem setS_d (v : Nibble) : (s.setS v).d = s.d := rfl
@[simp] theorem setS_e (v : Nibble) : (s.setS v).e = s.e := rfl
@[simp] theorem setS_f (v : Nibble) : (s.setS v).f = s.f := rfl
@[simp] theorem setS_i (v : Nibble) : (s.setS v).i = s.i := rfl
@[simp] theorem setS_status (v : Nibble) : (s.setS v).status = s.status := rfl
@[simp] theorem setS_out (v : Nibble) : (s.setS v).out = s.out := rfl
@[simp] theorem setS_host (v : Nibble) : (s.setS v).host = s.host := rfl
@[simp] theorem setS_draws (v : Nibble) : (s.setS v).draws = s.draws := rfl

/-! ## `setY` -/

@[simp] theorem setY_x (v : Half) : (s.setY v).x = s.x := rfl
@[simp] theorem setY_n (v : Half) : (s.setY v).n = s.n := rfl
@[simp] theorem setY_s (v : Half) : (s.setY v).s = s.s := rfl
@[simp] theorem setY_y (v : Half) : (s.setY v).y = v := rfl
@[simp] theorem setY_a (v : Half) : (s.setY v).a = s.a := rfl
@[simp] theorem setY_d (v : Half) : (s.setY v).d = s.d := rfl
@[simp] theorem setY_e (v : Half) : (s.setY v).e = s.e := rfl
@[simp] theorem setY_f (v : Half) : (s.setY v).f = s.f := rfl
@[simp] theorem setY_i (v : Half) : (s.setY v).i = s.i := rfl
@[simp] theorem setY_status (v : Half) : (s.setY v).status = s.status := rfl
@[simp] theorem setY_out (v : Half) : (s.setY v).out = s.out := rfl
@[simp] theorem setY_host (v : Half) : (s.setY v).host = s.host := rfl
@[simp] theorem setY_draws (v : Half) : (s.setY v).draws = s.draws := rfl

/-! ## `setA` -/

@[simp] theorem setA_x (v : Half) : (s.setA v).x = s.x := rfl
@[simp] theorem setA_n (v : Half) : (s.setA v).n = s.n := rfl
@[simp] theorem setA_s (v : Half) : (s.setA v).s = s.s := rfl
@[simp] theorem setA_y (v : Half) : (s.setA v).y = s.y := rfl
@[simp] theorem setA_a (v : Half) : (s.setA v).a = v := rfl
@[simp] theorem setA_d (v : Half) : (s.setA v).d = s.d := rfl
@[simp] theorem setA_e (v : Half) : (s.setA v).e = s.e := rfl
@[simp] theorem setA_f (v : Half) : (s.setA v).f = s.f := rfl
@[simp] theorem setA_i (v : Half) : (s.setA v).i = s.i := rfl
@[simp] theorem setA_status (v : Half) : (s.setA v).status = s.status := rfl
@[simp] theorem setA_out (v : Half) : (s.setA v).out = s.out := rfl
@[simp] theorem setA_host (v : Half) : (s.setA v).host = s.host := rfl
@[simp] theorem setA_draws (v : Half) : (s.setA v).draws = s.draws := rfl

/-! ## `setD` -/

@[simp] theorem setD_x (v : Half) : (s.setD v).x = s.x := rfl
@[simp] theorem setD_n (v : Half) : (s.setD v).n = s.n := rfl
@[simp] theorem setD_s (v : Half) : (s.setD v).s = s.s := rfl
@[simp] theorem setD_y (v : Half) : (s.setD v).y = s.y := rfl
@[simp] theorem setD_a (v : Half) : (s.setD v).a = s.a := rfl
@[simp] theorem setD_d (v : Half) : (s.setD v).d = v := rfl
@[simp] theorem setD_e (v : Half) : (s.setD v).e = s.e := rfl
@[simp] theorem setD_f (v : Half) : (s.setD v).f = s.f := rfl
@[simp] theorem setD_i (v : Half) : (s.setD v).i = s.i := rfl
@[simp] theorem setD_status (v : Half) : (s.setD v).status = s.status := rfl
@[simp] theorem setD_out (v : Half) : (s.setD v).out = s.out := rfl
@[simp] theorem setD_host (v : Half) : (s.setD v).host = s.host := rfl
@[simp] theorem setD_draws (v : Half) : (s.setD v).draws = s.draws := rfl

/-! ## `setE` -/

@[simp] theorem setE_x (v : Word) : (s.setE v).x = s.x := rfl
@[simp] theorem setE_n (v : Word) : (s.setE v).n = s.n := rfl
@[simp] theorem setE_s (v : Word) : (s.setE v).s = s.s := rfl
@[simp] theorem setE_y (v : Word) : (s.setE v).y = s.y := rfl
@[simp] theorem setE_a (v : Word) : (s.setE v).a = s.a := rfl
@[simp] theorem setE_d (v : Word) : (s.setE v).d = s.d := rfl
@[simp] theorem setE_e (v : Word) : (s.setE v).e = v := rfl
@[simp] theorem setE_f (v : Word) : (s.setE v).f = s.f := rfl
@[simp] theorem setE_i (v : Word) : (s.setE v).i = s.i := rfl
@[simp] theorem setE_status (v : Word) : (s.setE v).status = s.status := rfl
@[simp] theorem setE_out (v : Word) : (s.setE v).out = s.out := rfl
@[simp] theorem setE_host (v : Word) : (s.setE v).host = s.host := rfl
@[simp] theorem setE_draws (v : Word) : (s.setE v).draws = s.draws := rfl

/-! ## `setF` -/

@[simp] theorem setF_x (v : Half) : (s.setF v).x = s.x := rfl
@[simp] theorem setF_n (v : Half) : (s.setF v).n = s.n := rfl
@[simp] theorem setF_s (v : Half) : (s.setF v).s = s.s := rfl
@[simp] theorem setF_y (v : Half) : (s.setF v).y = s.y := rfl
@[simp] theorem setF_a (v : Half) : (s.setF v).a = s.a := rfl
@[simp] theorem setF_d (v : Half) : (s.setF v).d = s.d := rfl
@[simp] theorem setF_e (v : Half) : (s.setF v).e = s.e := rfl
@[simp] theorem setF_f (v : Half) : (s.setF v).f = v := rfl
@[simp] theorem setF_i (v : Half) : (s.setF v).i = s.i := rfl
@[simp] theorem setF_status (v : Half) : (s.setF v).status = s.status := rfl
@[simp] theorem setF_out (v : Half) : (s.setF v).out = s.out := rfl
@[simp] theorem setF_host (v : Half) : (s.setF v).host = s.host := rfl
@[simp] theorem setF_draws (v : Half) : (s.setF v).draws = s.draws := rfl

/-! ## `setI` -/

@[simp] theorem setI_x (v : Nibble) : (s.setI v).x = s.x := rfl
@[simp] theorem setI_n (v : Nibble) : (s.setI v).n = s.n := rfl
@[simp] theorem setI_s (v : Nibble) : (s.setI v).s = s.s := rfl
@[simp] theorem setI_y (v : Nibble) : (s.setI v).y = s.y := rfl
@[simp] theorem setI_a (v : Nibble) : (s.setI v).a = s.a := rfl
@[simp] theorem setI_d (v : Nibble) : (s.setI v).d = s.d := rfl
@[simp] theorem setI_e (v : Nibble) : (s.setI v).e = s.e := rfl
@[simp] theorem setI_f (v : Nibble) : (s.setI v).f = s.f := rfl
@[simp] theorem setI_i (v : Nibble) : (s.setI v).i = v := rfl
@[simp] theorem setI_status (v : Nibble) : (s.setI v).status = s.status := rfl
@[simp] theorem setI_out (v : Nibble) : (s.setI v).out = s.out := rfl
@[simp] theorem setI_host (v : Nibble) : (s.setI v).host = s.host := rfl
@[simp] theorem setI_draws (v : Nibble) : (s.setI v).draws = s.draws := rfl

/-! ## `setStatus` -/

@[simp] theorem setStatus_x (v : Nibble) : (s.setStatus v).x = s.x := rfl
@[simp] theorem setStatus_n (v : Nibble) : (s.setStatus v).n = s.n := rfl
@[simp] theorem setStatus_s (v : Nibble) : (s.setStatus v).s = s.s := rfl
@[simp] theorem setStatus_y (v : Nibble) : (s.setStatus v).y = s.y := rfl
@[simp] theorem setStatus_a (v : Nibble) : (s.setStatus v).a = s.a := rfl
@[simp] theorem setStatus_d (v : Nibble) : (s.setStatus v).d = s.d := rfl
@[simp] theorem setStatus_e (v : Nibble) : (s.setStatus v).e = s.e := rfl
@[simp] theorem setStatus_f (v : Nibble) : (s.setStatus v).f = s.f := rfl
@[simp] theorem setStatus_i (v : Nibble) : (s.setStatus v).i = s.i := rfl
@[simp] theorem setStatus_status (v : Nibble) : (s.setStatus v).status = v := rfl
@[simp] theorem setStatus_out (v : Nibble) : (s.setStatus v).out = s.out := rfl
@[simp] theorem setStatus_host (v : Nibble) : (s.setStatus v).host = s.host := rfl
@[simp] theorem setStatus_draws (v : Nibble) : (s.setStatus v).draws = s.draws := rfl

/-! ## `setOut` -/

@[simp] theorem setOut_x (v : List Record) : (s.setOut v).x = s.x := rfl
@[simp] theorem setOut_n (v : List Record) : (s.setOut v).n = s.n := rfl
@[simp] theorem setOut_s (v : List Record) : (s.setOut v).s = s.s := rfl
@[simp] theorem setOut_y (v : List Record) : (s.setOut v).y = s.y := rfl
@[simp] theorem setOut_a (v : List Record) : (s.setOut v).a = s.a := rfl
@[simp] theorem setOut_d (v : List Record) : (s.setOut v).d = s.d := rfl
@[simp] theorem setOut_e (v : List Record) : (s.setOut v).e = s.e := rfl
@[simp] theorem setOut_f (v : List Record) : (s.setOut v).f = s.f := rfl
@[simp] theorem setOut_i (v : List Record) : (s.setOut v).i = s.i := rfl
@[simp] theorem setOut_status (v : List Record) : (s.setOut v).status = s.status := rfl
@[simp] theorem setOut_out (v : List Record) : (s.setOut v).out = v := rfl
@[simp] theorem setOut_host (v : List Record) : (s.setOut v).host = s.host := rfl
@[simp] theorem setOut_draws (v : List Record) : (s.setOut v).draws = s.draws := rfl

/-! ## `setHost` -/

@[simp] theorem setHost_x (v : List HostInput) : (s.setHost v).x = s.x := rfl
@[simp] theorem setHost_n (v : List HostInput) : (s.setHost v).n = s.n := rfl
@[simp] theorem setHost_s (v : List HostInput) : (s.setHost v).s = s.s := rfl
@[simp] theorem setHost_y (v : List HostInput) : (s.setHost v).y = s.y := rfl
@[simp] theorem setHost_a (v : List HostInput) : (s.setHost v).a = s.a := rfl
@[simp] theorem setHost_d (v : List HostInput) : (s.setHost v).d = s.d := rfl
@[simp] theorem setHost_e (v : List HostInput) : (s.setHost v).e = s.e := rfl
@[simp] theorem setHost_f (v : List HostInput) : (s.setHost v).f = s.f := rfl
@[simp] theorem setHost_i (v : List HostInput) : (s.setHost v).i = s.i := rfl
@[simp] theorem setHost_status (v : List HostInput) : (s.setHost v).status = s.status := rfl
@[simp] theorem setHost_out (v : List HostInput) : (s.setHost v).out = s.out := rfl
@[simp] theorem setHost_host (v : List HostInput) : (s.setHost v).host = v := rfl
@[simp] theorem setHost_draws (v : List HostInput) : (s.setHost v).draws = s.draws := rfl

/-! ## `setDraws` -/

@[simp] theorem setDraws_x (v : Nat) : (s.setDraws v).x = s.x := rfl
@[simp] theorem setDraws_n (v : Nat) : (s.setDraws v).n = s.n := rfl
@[simp] theorem setDraws_s (v : Nat) : (s.setDraws v).s = s.s := rfl
@[simp] theorem setDraws_y (v : Nat) : (s.setDraws v).y = s.y := rfl
@[simp] theorem setDraws_a (v : Nat) : (s.setDraws v).a = s.a := rfl
@[simp] theorem setDraws_d (v : Nat) : (s.setDraws v).d = s.d := rfl
@[simp] theorem setDraws_e (v : Nat) : (s.setDraws v).e = s.e := rfl
@[simp] theorem setDraws_f (v : Nat) : (s.setDraws v).f = s.f := rfl
@[simp] theorem setDraws_i (v : Nat) : (s.setDraws v).i = s.i := rfl
@[simp] theorem setDraws_status (v : Nat) : (s.setDraws v).status = s.status := rfl
@[simp] theorem setDraws_out (v : Nat) : (s.setDraws v).out = s.out := rfl
@[simp] theorem setDraws_host (v : Nat) : (s.setDraws v).host = s.host := rfl
@[simp] theorem setDraws_draws (v : Nat) : (s.setDraws v).draws = v := rfl

end Sys2Proof.Machine.State
end

