-- ==== Sys2Proof/Laws/Flags.lean ====
section
/-!
SUPPORT. What raising a flag and writing `ZS` do (10_state.md R18, 60_exceptions.md R64, R68).
-/

namespace Sys2Proof.Machine

/-- Bit-level fact behind `flag_raise`. -/
theorem raise_bit (st : Nibble) (f g : Flag) :
    (st ||| 1#4 <<< flagBit f).getLsbD (flagBit g) = (st.getLsbD (flagBit g) || decide (f = g)) := by
  revert st
  cases f <;> cases g <;> decide

/-- Bit-level fact behind `flag_writeZs`. -/
theorem writeZs_bit (st : Nibble) (g : Flag) :
    (st ||| 0b1000#4).getLsbD (flagBit g) = (st.getLsbD (flagBit g) || decide (g = .zs)) ∧
    (st &&& 0b0111#4).getLsbD (flagBit g) = (st.getLsbD (flagBit g) && decide (g ≠ .zs)) := by
  revert st
  cases g <;> decide

/-- `raise F` sets the one bit and keeps the others (R64). -/
@[simp] theorem flag_raise (s : State) (f g : Flag) :
    (s.raise f).flag g = (s.flag g || decide (f = g)) :=
  raise_bit s.status f g

/-- `ZS <- b` writes the one bit and keeps the others (R68). -/
@[simp] theorem flag_writeZs (s : State) (b : Bool) (g : Flag) :
    (s.writeZs b).flag g = if g = .zs then b else s.flag g := by
  cases b
  · have h := (writeZs_bit s.status g).2
    by_cases hg : g = .zs <;> simp_all [State.writeZs, State.flag]
  · have h := (writeZs_bit s.status g).1
    by_cases hg : g = .zs <;> simp_all [State.writeZs, State.flag]

/-- `raise F` writes `STATUS` and nothing else. -/
theorem raise_eq (s : State) (f : Flag) : s.raise f = { s with status := s.status ||| 1#4 <<< flagBit f } := rfl

/-- Writing `ZS` writes `STATUS` and nothing else. -/
theorem writeZs_eq (s : State) (b : Bool) :
    s.writeZs b = { s with status := if b then s.status ||| 0b1000#4 else s.status &&& 0b0111#4 } := by
  cases b <;> rfl

end Sys2Proof.Machine
end

