-- ==== Sys2Proof/Laws/Ops.lean ====
section
/-!
SUPPORT. For each shared operation, once, everything it can do: which fields it writes (the others stand in the record
update as they were) and what it writes there. Proofs about commands cite these and do not unfold the operations.
-/

namespace Sys2Proof.Machine

variable (p : Params) (s : State)

/-! ## Operations that always write the same fields -/

theorem loadExponent_eq (idx : Nibble) : loadExponent idx s = { s with i := idx, x := powerOfTwo idx } := rfl

theorem loadGolden_eq : loadGolden p s = { s with a := romRead p.gold s.i } := rfl

theorem reduce_eq : reduce s = { s with n := (rangeReduce s.x).1, s := (rangeReduce s.x).2 } := rfl

theorem lookUpSeed_eq : lookUpSeed p s = { s with y := romRead p.seed s.n >>> s.s.toNat } := rfl

theorem drawY_eq : drawY p s = { s with y := p.nrUfValue s.draws, draws := s.draws + 1 } := rfl

theorem emitRecord_eq : emitRecord s = { s with out := s.out ++ [snapshot s] } := rfl

theorem applyReset_eq :
    applyReset s = { State.reset with out := s.out, host := s.host, draws := s.draws } := rfl

/-! ## Operations with a case distinction -/

/-- `NR` where the subtraction does not underflow writes `Y` alone. -/
theorem newton_of_safe (h : NewtonSafe s.x s.y) : newton p s = { s with y := newtonResult s.x s.y } := by
  have hu : newtonUnderflows s.x s.y = false := by
    by_contra hc
    exact (newtonUnderflows_iff s.x s.y).1 (by simpa using hc) h
  simp [newton, hu, State.setY]

/-- `NR` where the subtraction would underflow raises `UF` and draws `Y`. -/
theorem newton_of_underflow (h : ¬ NewtonSafe s.x s.y) :
    newton p s = { s with y := p.nrUfValue s.draws, status := s.status ||| 1#4, draws := s.draws + 1 } := by
  have hu : newtonUnderflows s.x s.y = true := (newtonUnderflows_iff s.x s.y).2 h
  simp only [newton, hu, if_true]
  rfl

/-- Whatever its operands, `NR` writes `Y`, the draw count, and in `STATUS` at most a 1 in `UF`. -/
theorem newton_frame : ∃ y st k, newton p s = { s with y := y, status := st, draws := k } ∧
    (st = s.status ∨ st = s.status ||| 1#4) := by
  by_cases h : NewtonSafe s.x s.y
  · exact ⟨_, s.status, s.draws, newton_of_safe p s h, .inl rfl⟩
  · exact ⟨_, _, _, newton_of_underflow p s h, .inr rfl⟩

/-- Setting `UF` twice is setting it once. -/
theorem or_uf_or_uf (st : Nibble) : st ||| 1#4 ||| 1#4 = st ||| 1#4 := by
  revert st
  decide

/-- The reduction, the seed and the three iterations write `N S Y`, the draw count, and in `STATUS` at most a 1 in `UF`. -/
theorem refine_frame : ∃ y st k,
    refine p s =
      { s with n := (rangeReduce s.x).1, s := (rangeReduce s.x).2, y := y, status := st, draws := k } ∧
    (st = s.status ∨ st = s.status ||| 1#4) := by
  obtain ⟨y1, st1, k1, h1, c1⟩ := newton_frame p (lookUpSeed p (reduce s))
  obtain ⟨y2, st2, k2, h2, c2⟩ := newton_frame p (newton p (lookUpSeed p (reduce s)))
  obtain ⟨y3, st3, k3, h3, c3⟩ := newton_frame p (newton p (newton p (lookUpSeed p (reduce s))))
  refine ⟨y3, st3, k3, ?_, ?_⟩
  · rw [refine, h3, h2, h1]
    rfl
  · have e1 : st1 = s.status ∨ st1 = s.status ||| 1#4 := c1
    have e2 : st2 = st1 ∨ st2 = st1 ||| 1#4 := by rw [h1] at c2; exact c2
    have e3 : st3 = st2 ∨ st3 = st2 ||| 1#4 := by rw [h2] at c3; exact c3
    rcases e1 with rfl | rfl <;> rcases e2 with rfl | rfl <;> rcases e3 with rfl | rfl <;>
      simp [or_uf_or_uf]

/-- `EST` on input 0 writes the sentinel and `ZS` alone. -/
theorem estimate_of_zero (h : s.x = 0#16) :
    estimate p s = { s with y := 65535#16, status := s.status ||| 0b1000#4 } := by
  simp [estimate, h, State.writeZs, State.setStatus, State.setY, sentinel]

/-- `EST` on any other input clears `ZS` and runs the non-zero path. -/
theorem estimate_of_ne_zero (h : s.x ≠ 0#16) :
    estimate p s = refine p { s with status := s.status &&& 0b0111#4 } := by
  simp [estimate, h, State.writeZs, State.setStatus]

/-- Whatever its operands, `EST` writes `N S Y`, the draw count, and in `STATUS` `ZS` and at most a 1 in `UF`. -/
theorem estimate_frame : ∃ n sc y st k,
    estimate p s = { s with n := n, s := sc, y := y, status := st, draws := k } ∧
    ((s.x = 0#16 ∧ st = s.status ||| 0b1000#4) ∨
      (s.x ≠ 0#16 ∧ (st = s.status &&& 0b0111#4 ∨ st = s.status &&& 0b0111#4 ||| 1#4) ∧
        n = (rangeReduce s.x).1 ∧ sc = (rangeReduce s.x).2)) := by
  by_cases h : s.x = 0#16
  · exact ⟨s.n, s.s, _, _, s.draws, estimate_of_zero p s h, .inl ⟨h, rfl⟩⟩
  · obtain ⟨y, st, k, hr, hst⟩ := refine_frame p { s with status := s.status &&& 0b0111#4 }
    exact ⟨_, _, y, st, k, (estimate_of_ne_zero p s h).trans hr, .inr ⟨h, hst, rfl, rfl⟩⟩

/-- `ERR` against a zero reference. -/
theorem compare_of_zero (h : s.a = 0#16) :
    compare s = { s with d := absDiff s.a s.y, e := 0xFFFFFFFF#32, status := s.status ||| 0b0010#4 } := by
  rw [compare, if_pos h]
  rfl

/-- `ERR` against any other reference. -/
theorem compare_of_ne_zero (h : s.a ≠ 0#16) :
    compare s = { s with d := absDiff s.a s.y, e := relativeError (absDiff s.a s.y) s.a } := by
  rw [compare, if_neg h]
  rfl

/-- Whatever its operands, `ERR` writes `D`, `E`, and in `STATUS` at most a 1 in `DZ`. -/
theorem compare_frame : ∃ e st, compare s = { s with d := absDiff s.a s.y, e := e, status := st } ∧
    (st = s.status ∨ st = s.status ||| 0b0010#4) ∧
    e = if s.a = 0#16 then 0xFFFFFFFF#32 else relativeError (absDiff s.a s.y) s.a := by
  by_cases h : s.a = 0#16
  · exact ⟨_, _, compare_of_zero s h, .inr rfl, by rw [if_pos h]⟩
  · exact ⟨_, s.status, compare_of_ne_zero s h, .inl rfl, by rw [if_neg h]⟩

/-- A power of two is not 0 (R46). -/
theorem powerOfTwo_ne_zero (idx : Nibble) : powerOfTwo idx ≠ 0#16 := by
  revert idx
  decide

/-- One sweep iteration: the fields it writes, the one record it appends, and the bits of `STATUS` it may set (R61). -/
theorem sweepIteration_frame (idx : Nibble) : ∃ y st k,
    sweepIteration p idx s =
      { s with x := powerOfTwo idx, n := (rangeReduce (powerOfTwo idx)).1, s := (rangeReduce (powerOfTwo idx)).2,
               y := y, a := romRead p.gold idx, d := absDiff (romRead p.gold idx) y,
               e := if romRead p.gold idx = 0#16 then 0xFFFFFFFF#32
                 else relativeError (absDiff (romRead p.gold idx) y) (romRead p.gold idx),
               i := idx, status := st, draws := k,
               out := s.out ++ [⟨powerOfTwo idx, y, romRead p.gold idx, absDiff (romRead p.gold idx) y,
                 if romRead p.gold idx = 0#16 then 0xFFFFFFFF#32
                 else relativeError (absDiff (romRead p.gold idx) y) (romRead p.gold idx)⟩] } ∧
    (∃ m ∈ [0b00#4, 0b01#4, 0b10#4, 0b11#4], st = s.status &&& 0b0111#4 ||| m) := by
  obtain ⟨n, sc, y, st, k, h1, c1⟩ := estimate_frame p (loadExponent idx s)
  obtain ⟨e, st2, h2, c2, he⟩ := compare_frame (loadGolden p (estimate p (loadExponent idx s)))
  rw [h1] at h2 c2 he
  obtain ⟨hz, -⟩ | ⟨-, hst, rfl, rfl⟩ := c1
  · exact absurd hz (powerOfTwo_ne_zero idx)
  refine ⟨y, st2, k, ?_, ?_⟩
  · rw [sweepIteration, emitRecord_eq, h1, h2, he]
    rfl
  · have e1 : st = s.status &&& 0b0111#4 ∨ st = s.status &&& 0b0111#4 ||| 1#4 := hst
    have e2 : st2 = st ∨ st2 = st ||| 0b0010#4 := c2
    rcases e1 with rfl | rfl <;> rcases e2 with rfl | rfl
    · exact ⟨0b00#4, by decide, by simp⟩
    · exact ⟨0b10#4, by decide, rfl⟩
    · exact ⟨0b01#4, by decide, rfl⟩
    · exact ⟨0b11#4, by decide, by rw [BitVec.or_assoc]; rfl⟩

/-! ## The effect of a command -/

/-- The next state of a command, with the parameters of the block as an argument. -/
def effect : Instr → State → State
  | .ldx imm16, s => s.setX imm16
  | .ldxp idx, s => loadExponent idx s
  | .ldy imm16, s => s.setY imm16
  | .lda imm16, s => s.setA imm16
  | .ldg, s => loadGolden p s
  | .red, s => reduce s
  | .seed, s => lookUpSeed p s
  | .nr, s => newton p s
  | .est, s => estimate p s
  | .err, s => compare s
  | .frc imm16, s => s.setF (frac4 imm16)
  | .emit, s => emitRecord s
  | .swp, s => sweep p s

/-- Every command completes, with the effect named above (R63, R91). -/
theorem exec_eq_effect (i : Instr) : exec i s = .next (effect Config.params i s) := by
  cases i <;> rfl

/-- Commands issued one after another complete, each on the state the one before left. -/
theorem execAll_eq_foldl (is : List Instr) :
    execAll is s = .next (is.foldl (fun t i => effect Config.params i t) s) := by
  induction is generalizing s with
  | nil => rfl
  | cons i is ih => simp only [execAll, exec_eq_effect, ih, List.foldl_cons]

/-- What accepting a word can do (R41, R83): run the command it decodes to, or raise `IL`. -/
theorem acceptWord_cases (w : Word) :
    (∃ i, decode w = .ok i ∧ acceptWord w s = .next (effect Config.params i s)) ∨
    (∃ r, decode w = .error r ∧ acceptWord w s = .next (s.raise .il)) := by
  cases h : decode w with
  | ok i => exact .inl ⟨i, rfl, by simp [acceptWord, h, exec_eq_effect]⟩
  | error r => exact .inr ⟨r, rfl, by simp [acceptWord, h]⟩

/-- Everything a step can do: idle, run a command, refuse an illegal word, reset, or a reset that cuts a command short. -/
theorem step_cases :
    (s.host = [] ∧ step s = .next s) ∨
    (∃ w rest i, s.host = .command w :: rest ∧ decode w = .ok i ∧
      step s = .next (effect Config.params i (s.setHost rest))) ∨
    (∃ w rest r, s.host = .command w :: rest ∧ decode w = .error r ∧
      step s = .next ((s.setHost rest).raise .il)) ∨
    (∃ rest, s.host = .reset :: rest ∧ step s = .next (applyReset (s.setHost rest))) ∨
    (∃ w rest t, s.host = .commandCutByReset w :: rest ∧ acceptWord w (s.setHost rest) = .next t ∧
      step s = .next (cutByReset Config.params (s.setHost rest) t)) := by
  unfold step serveNext
  cases hh : s.host with
  | nil => exact .inl ⟨rfl, rfl⟩
  | cons input rest =>
    refine .inr ?_
    cases input with
    | command w =>
      rcases acceptWord_cases (s.setHost rest) w with ⟨i, hd, ha⟩ | ⟨r, hd, ha⟩
      · exact .inl ⟨w, rest, i, rfl, hd, ha⟩
      · exact .inr (.inl ⟨w, rest, r, rfl, hd, ha⟩)
    | reset => exact .inr (.inr (.inl ⟨rest, rfl, rfl⟩))
    | commandCutByReset w =>
      refine .inr (.inr (.inr ?_))
      rcases acceptWord_cases (s.setHost rest) w with ⟨i, hd, ha⟩ | ⟨r, hd, ha⟩ <;>
        exact ⟨w, rest, _, rfl, ha, by simp [serve, acceptWordCut, ha]⟩

end Sys2Proof.Machine
end

