-- ==== Sys2Proof/Laws/PerInstr.lean ====
section
/-!
SUPPORT. The family of statements made per command: the encoder's word of a command matches its own row of R40.
-/

namespace Sys2Proof.Laws.RowMatch

/-- The word the encoder gives a command is a word of that command's row: `w & mask == match` (R40). -/
def Statement (i : Instr) : Prop := i.rowMatches (encode i) = true

/-- A V-format row does not see `imm16`. -/
theorem maskV (op : Nibble) (v : Half) :
    (op.toWord <<< 28 ||| Nibble.toWord 0#4 <<< 16 ||| v.toWord) &&& Format.v.mask = op.toWord <<< 28 := by
  have hv : v.toWord &&& 0xFFFF0000#32 = 0#32 := by
    apply BitVec.eq_of_getLsbD_eq
    intro k hk
    by_cases hk16 : k < 16
    · interval_cases k <;> simp [Half.toWord]
    · simp [Half.toWord, BitVec.getLsbD_of_ge _ _ (show 16 ≤ k by omega)]
  have h0 : ∀ op : Nibble, (op.toWord <<< 28 ||| Nibble.toWord 0#4 <<< 16) &&& 0xFFFF0000#32 = op.toWord <<< 28 := by
    decide
  rw [show Format.v.mask = 0xFFFF0000#32 from rfl, BitVec.and_comm, BitVec.and_or_distrib_left,
    BitVec.and_comm _ (v.toWord), hv, BitVec.and_comm, h0 op, BitVec.or_zero]

/-- An I-format row does not see `idx`. -/
theorem maskI (op idx : Nibble) :
    (op.toWord <<< 28 ||| idx.toWord <<< 16 ||| Half.toWord 0#16) &&& Format.i.mask = op.toWord <<< 28 := by
  revert op idx
  decide

/-- The row test as an equation. -/
theorem of_row {i : Instr} (h : encode i &&& i.format.mask = i.matchWord) : Statement i := by
  simp [Statement, Instr.rowMatches, h]

theorem ldx (imm16 : Half) : Statement (.ldx imm16) :=
  of_row (maskV 0x1#4 imm16)
theorem ldxp (idx : Nibble) : Statement (.ldxp idx) :=
  of_row (maskI 0x2#4 idx)
theorem ldy (imm16 : Half) : Statement (.ldy imm16) :=
  of_row (maskV 0x3#4 imm16)
theorem lda (imm16 : Half) : Statement (.lda imm16) :=
  of_row (maskV 0x4#4 imm16)
theorem ldg : Statement .ldg := rfl
theorem red : Statement .red := rfl
theorem seed : Statement .seed := rfl
theorem nr : Statement .nr := rfl
theorem est : Statement .est := rfl
theorem err : Statement .err := rfl
theorem frc (imm16 : Half) : Statement (.frc imm16) :=
  of_row (maskV 0xB#4 imm16)
theorem emit : Statement .emit := rfl
theorem swp : Statement .swp := rfl

end Sys2Proof.Laws.RowMatch
end

