-- ==== Sys2Proof/Laws/Text.lean ====
section
/-!
SUPPORT. What the trimming of a line's literal text leaves at its ends (46_report.md R60), once.
-/

namespace Sys2Proof.Machine

theorem isDigit_iff (b : Byte) : isDigit b = true ↔ 0x30 ≤ b.toNat ∧ b.toNat ≤ 0x39 := by
  simp [isDigit, asciiByte, BitVec.le_def]

/-- No trimmed byte is left at the start. -/
theorem head?_trimStart (p : Byte → Bool) (l : List Byte) : ∀ b ∈ (trimStart p l).head?, p b = false := by
  intro b hb
  induction l with
  | nil => simp [trimStart] at hb
  | cons x l ih =>
    cases hx : p x with
    | true => exact ih (by simpa [trimStart, List.dropWhile_cons, hx] using hb)
    | false =>
      obtain rfl : x = b := by simpa [trimStart, List.dropWhile_cons, hx] using hb
      exact hx

/-- No trimmed byte is left at the end. -/
theorem getLast?_trimEnd (p : Byte → Bool) (l : List Byte) : ∀ b ∈ (trimEnd p l).getLast?, p b = false := by
  intro b hb
  exact head?_trimStart p l.reverse b (by simpa [trimEnd, trimStart] using hb)

/-- Trimming the end leaves the first byte, unless nothing is left. -/
theorem head?_trimEnd (p : Byte → Bool) (l : List Byte) : ∀ b ∈ (trimEnd p l).head?, b ∈ l.head? := by
  intro b hb
  have h : trimEnd p l <+: l := by
    have := List.dropWhile_suffix p (l := l.reverse)
    rw [← List.reverse_prefix] at this
    simpa [trimEnd] using this
  obtain ⟨m, hm⟩ := h
  rw [← hm, List.head?_append]
  simp [Option.mem_def.mp hb]

end Sys2Proof.Machine
end

