-- ==== Sys2Proof/Tests/Slice0.lean ====
section
/-!
SUPPORT. The model's own tests. Expected results are the spec's: the section of 95_test_vectors.md or the rule stands beside each.
After them, for every statement with hypotheses, a concrete case that meets them together.
-/

namespace Sys2Proof.Tests

open Sys2Proof Sys2Proof.Machine

/-- The next state of an outcome, if it is one. -/
def nextOf (o : Host.Outcome State Fault Refusal) : Option State :=
  match o with
  | .next t => some t
  | _ => none

/-- The reset state with operands in `X`, `Y` and `A`. -/
def withXYA (x y a : Half) : State := { State.reset with x := x, y := y, a := a }

/-! ## Well-formedness: one ill-formed source command for each check (R42) -/

theorem test_wellFormed_refuses_wide_imm16 :
    (Source.ldx 65536).wellFormed = false ∧ (Source.ldy 65536).wellFormed = false ∧
    (Source.lda 65536).wellFormed = false ∧ (Source.frc 65536).wellFormed = false ∧
    (Source.esti 65536).wellFormed = false := by decide

theorem test_wellFormed_refuses_wide_idx :
    (Source.ldxp 16).wellFormed = false ∧ (Source.iter 16).wellFormed = false := by decide

theorem test_wellFormed_accepts_largest :
    (Source.ldx 65535).wellFormed = true ∧ (Source.ldxp 15).wellFormed = true := by decide

/-! ## Decoding (section 2.1): words written out from the spec's encodings -/

theorem test_decode_ldx : decode 0x10000064#32 = .ok (.ldx 100#16) := by decide
theorem test_decode_ldxp : decode 0x200F0000#32 = .ok (.ldxp 15#4) := by decide
theorem test_decode_ldy : decode 0x3000B505#32 = .ok (.ldy 46341#16) := by decide
theorem test_decode_lda : decode 0x4000016A#32 = .ok (.lda 362#16) := by decide
theorem test_decode_ldg : decode 0x50000000#32 = .ok .ldg := by decide
theorem test_decode_red : decode 0x60000000#32 = .ok .red := by decide
theorem test_decode_seed : decode 0x70000000#32 = .ok .seed := by decide
theorem test_decode_nr : decode 0x80000000#32 = .ok .nr := by decide
theorem test_decode_est : decode 0x90000000#32 = .ok .est := by decide
theorem test_decode_err : decode 0xA0000000#32 = .ok .err := by decide
theorem test_decode_frc : decode 0xB000199A#32 = .ok (.frc 6554#16) := by decide
theorem test_decode_emit : decode 0xC0000000#32 = .ok .emit := by decide
theorem test_decode_swp : decode 0xD0000000#32 = .ok .swp := by decide

/-- The illegal words of section 2.1, each with the clause of R41 it meets first. -/
theorem test_decode_illegal :
    decode 0x00000000#32 = .error .reservedOpcode ∧ decode 0xE0000000#32 = .error .reservedOpcode ∧
    decode 0xF0000000#32 = .error .reservedOpcode ∧ decode 0xFFFFFFFF#32 = .error .reservedOpcode ∧
    decode 0x80000001#32 = .error .imm16NotZero ∧ decode 0x80010000#32 = .error .idxNotZero ∧
    decode 0x10010064#32 = .error .idxNotZero ∧ decode 0x20000001#32 = .error .imm16NotZero ∧
    decode 0x10100064#32 = .error .mbzNotZero ∧ decode 0x98000000#32 = .error .mbzNotZero ∧
    decode 0x0000000D#32 = .error .reservedOpcode := by decide

/-- R42's examples of words. -/
theorem test_encode_examples :
    encode (.ldx 100#16) = 0x10000064#32 ∧ encode (.ldxp 15#4) = 0x200F0000#32 ∧ encode .nr = 0x80000000#32 ∧
    encode (.frc 6554#16) = 0xB000199A#32 := by decide

theorem test_decodeTableWord : decodeTableWord 32 0x3000B505 = some (.ldy 46341#16) := by decide

/-! ## Assembler (R42, R43) -/

theorem test_assemble_ldx : assembleLine "LDX 100 ; the input".toList = .ok [0x10000064#32] := by decide
theorem test_assemble_hex : assembleLine "FRC 0x199A".toList = .ok [0xB000199A#32] := by decide
theorem test_assemble_iter :
    assembleLine "ITER 15".toList =
      .ok [0x200F0000#32, 0x90000000#32, 0x50000000#32, 0xA0000000#32, 0xC0000000#32] := by decide
/-- Log entry 14: a blank line and a comment-only line hold no command. -/
theorem test_assemble_blank :
    assembleLine [] = .ok [] ∧ assembleLine "  ".toList = .ok [] ∧ assembleLine " ; note".toList = .ok [] ∧
    assembleLine " NR".toList = .error .unknownMnemonic ∧ assembleLine "LDX 007".toList = .ok [0x10000007#32] ∧
    assembleLine "LDX 0x".toList = .error .notANumeral := by decide
theorem test_assemble_refuses :
    assembleLine "LDX 65536".toList = .error .outOfRange ∧ assembleLine "LDXP 16".toList = .error .outOfRange ∧
    assembleLine "NR 1".toList = .error .operandShape ∧ assembleLine "LDX".toList = .error .operandShape ∧
    assembleLine "ldx 1".toList = .error .unknownMnemonic ∧ assembleLine "LDX -1".toList = .error .notANumeral := by decide

/-! ## Loads (section 2.2) -/

theorem test_ldx : (nextOf (exec (.ldx 65535#16) State.reset)).map (·.x) = some 65535#16 := by decide
theorem test_ldxp : (nextOf (exec (.ldxp 15#4) State.reset)).map (fun t => (t.i, t.x)) = some (15#4, 32768#16) := by decide
theorem test_ldxp_zero : (nextOf (exec (.ldxp 0#4) State.reset)).map (fun t => (t.i, t.x)) = some (0#4, 1#16) := by decide
theorem test_ldy : (nextOf (exec (.ldy 46341#16) State.reset)).map (·.y) = some 46341#16 := by decide
theorem test_lda : (nextOf (exec (.lda 362#16) State.reset)).map (·.a) = some 362#16 := by decide
/-- `LDXP 15 ; LDX 5 ; LDG` fetches `GOLD[15]`: the index is `I`, not `X`. -/
theorem test_ldg_uses_i : (loadGolden Params.ref { State.reset with i := 15#4, x := 5#16 }).a = 362#16 := by decide
theorem test_ldg_entry_eight : (loadGolden Params.ref { State.reset with i := 8#4 }).a = 4096#16 := by decide

/-! ## `RED` (section 2.3) -/

theorem test_red_wide_sum :
    (nextOf (exec .red (withXYA 65535#16 0#16 0#16))).map (fun t => (t.n, t.s)) = some (4#4, 7#4) := by decide
theorem test_red_rows :
    [0#16, 15#16, 16#16, 18#16, 61#16, 62#16, 100#16, 62805#16, 62806#16, 65534#16].map rangeReduce =
      [(1#4, 0#4), (15#4, 0#4), (4#4, 1#4), (5#4, 1#4), (15#4, 1#4), (4#4, 2#4), (6#4, 2#4), (15#4, 6#4), (4#4, 7#4),
        (4#4, 7#4)] := by decide

/-! ## `SEED` (section 2.4, with the reference seeds) -/

theorem test_seed : (lookUpSeed Params.ref { State.reset with n := 6#4, s := 2#4 }).y = 6688#16 := by decide
theorem test_seed_largest_shift : (lookUpSeed Params.ref { State.reset with n := 4#4, s := 7#4 }).y = 256#16 := by decide

/-! ## `NR` (section 2.5) -/

theorem test_nr : (nextOf (exec .nr (withXYA 17#16 16384#16 0#16))).map (fun t => (t.y, t.status)) =
    some (15872#16, 0#4) := by decide
/-- `p` is the limit exactly: no underflow, `Y` becomes 0; one step above it `UF` is set. -/
theorem test_nr_limit :
    (nextOf (exec .nr (withXYA 6#16 46341#16 0#16))).map (fun t => (t.y, t.status)) = some (0#16, 0#4) ∧
    (nextOf (exec .nr (withXYA 6#16 46342#16 0#16))).map (fun t => (t.x, t.status)) = some (6#16, 1#4) := by decide
theorem test_nr_rows :
    [newtonResult 0#16 65535#16, newtonResult 0#16 43690#16, newtonResult 0#16 43691#16, newtonResult 1#16 65535#16,
      newtonResult 3#16 65535#16, newtonResult 65535#16 444#16, newtonResult 32768#16 362#16] =
      [32766#16, 65535#16, 0#16, 65535#16, 1#16, 0#16, 452#16] := by decide

/-! ## `EST` (section 2.6) -/

theorem test_est_zero :
    (nextOf (exec .est State.reset)).map (fun t => (t.y, t.status, t.n, t.s)) = some (65535#16, 8#4, 1#4, 0#4) := by decide
theorem test_est_rows :
    [1#16, 8#16, 17#16, 100#16, 1000#16, 32768#16, 50600#16, 65535#16].map
        (fun x => (estimate Params.ref (withXYA x 0#16 0#16)).y) =
      [65535#16, 23171#16, 15895#16, 6554#16, 2072#16, 423#16, 392#16, 256#16] := by decide

/-! ## `ERR`, `FRC` (sections 2.7, 2.8) -/

theorem test_err :
    (nextOf (exec .err (withXYA 0#16 423#16 362#16))).map (fun t => (t.d, t.e, t.status)) =
      some (61#16, 1685#32, 0#4) ∧
    (nextOf (exec .err (withXYA 0#16 362#16 423#16))).map (fun t => (t.d, t.e, t.status)) =
      some (61#16, 1442#32, 0#4) := by decide
theorem test_err_zero_reference :
    (nextOf (exec .err (withXYA 0#16 5#16 0#16))).map (fun t => (t.d, t.e, t.status)) =
      some (5#16, 0xFFFFFFFF#32, 2#4) := by decide
theorem test_frc :
    [0#16, 6#16, 7#16, 362#16, 6553#16, 6554#16, 65535#16].map frac4 =
      [0#16, 0#16, 1#16, 55#16, 999#16, 1000#16, 9999#16] := by decide
theorem test_frc_writes_f : (nextOf (exec (.frc 6554#16) State.reset)).map (·.f) = some 1000#16 := by decide

/-! ## `EMIT`, `SWP` (sections 2.9, 5) -/

theorem test_emit :
    (nextOf (exec .emit (withXYA 9#16 21845#16 21845#16))).map (·.out) =
      some [⟨9#16, 21845#16, 21845#16, 0#16, 0#32⟩] := by decide
/-- The sixteen records of section 5, with the reference ROMs. -/
theorem test_swp_records :
    (sweep Params.ref State.reset).out.map (fun r => [r.arg.toNat, r.res.toNat, r.ans.toNat, r.diff.toNat, r.rel.toNat]) =
      [[1, 65535, 65535, 0, 0], [2, 46341, 46341, 0, 0], [4, 32768, 32768, 0, 0], [8, 23171, 23170, 1, 0],
       [16, 16384, 16384, 0, 0], [32, 11587, 11585, 2, 1], [64, 8192, 8192, 0, 0], [128, 5797, 5793, 4, 6],
       [256, 4096, 4096, 0, 0], [512, 2907, 2896, 11, 37], [1024, 2048, 2048, 0, 0], [2048, 1470, 1448, 22, 151],
       [4096, 1024, 1024, 0, 0], [8192, 765, 724, 41, 566], [16384, 512, 512, 0, 0], [32768, 423, 362, 61, 1685]] := by
  decide
/-- The state after `SWP` (section 5). -/
theorem test_swp_state :
    ({ sweep Params.ref State.reset with out := [] } : State) =
      { State.reset with x := 32768#16, n := 8#4, s := 6#4, y := 423#16, a := 362#16, d := 61#16, e := 1685#32, i := 15#4 } := by
  decide

/-! ## Text (section 4, section 5) -/

/-- `dec4(55) = "0055"`, `dec4(9999) = "9999"`, `dec4(10000)` is five digits, and the last record's texts (R60's example). -/
theorem test_text :
    dec4 55 = "0055".toList.map asciiByte ∧ dec4 0 = "0000".toList.map asciiByte ∧
    dec4 9999 = "9999".toList.map asciiByte ∧
    dec4 10000 = "10000".toList.map asciiByte ∧
    argText ⟨32768#16, 423#16, 362#16, 61#16, 1685#32⟩ = "32768".toList.map asciiByte ∧
    resText ⟨32768#16, 423#16, 362#16, 61#16, 1685#32⟩ = "0.0064".toList.map asciiByte ∧
    ansText ⟨32768#16, 423#16, 362#16, 61#16, 1685#32⟩ = "0.0055".toList.map asciiByte ∧
    relText ⟨32768#16, 423#16, 362#16, 61#16, 1685#32⟩ = "0.1685".toList.map asciiByte := by decide

/-- R60, "no padding, no sign": what of a literal text may stand before a number, and after one. -/
theorem test_trim :
    trimEnd (fun b => isDigit b || isSign b) ("arg 1=-00".toList.map asciiByte) = "arg 1=".toList.map asciiByte ∧
    trimStart isDigit ("90; res".toList.map asciiByte) = "; res".toList.map asciiByte := by decide

/-! ## Steps, reset, host reads -/

/-- A word that the host presents is the next to run, from reset. -/
theorem test_step_runs_fetch_word :
    (nextOf (step (State.reset.withFetchWord 32 0x10000064))).map (fun t => (t.x, t.host)) = some (100#16, []) := by decide
/-- P4, line 7: an illegal word sets `IL` alone. -/
theorem test_step_illegal_word :
    nextOf (step (State.reset.issue [0x00000000#32])) = some { State.reset with status := 4#4 } := by decide
theorem test_step_reset_keeps_out :
    nextOf (step { withXYA 9#16 8#16 7#16 with status := 15#4, out := [⟨1#16, 2#16, 3#16, 4#16, 5#32⟩], host := [.reset] }) =
      some { State.reset with out := [⟨1#16, 2#16, 3#16, 4#16, 5#32⟩] } := by decide
theorem test_host_reads_status : hostRead .status { State.reset with status := 13#4 } = 0x0000000D#32 := by decide

/-! ## Reference tables against their formulas (R25, R26)

`k = round(65536 / sqrt(m))` without roots: `(2k - 1)^2 m < 4 * 65536^2 < (2k + 1)^2 m`. -/

theorem test_seedRef_formula :
    ∀ n : Fin 16, 2 ≤ n.val →
      (2 * (Config.seedRef.get n).toNat - 1) ^ 2 * n.val < 4 * 65536 ^ 2 ∧
      4 * 65536 ^ 2 < (2 * (Config.seedRef.get n).toNat + 1) ^ 2 * n.val := by decide
theorem test_goldRef_formula :
    ∀ i : Fin 16, 1 ≤ i.val →
      (2 * (Config.goldRef.get i).toNat - 1) ^ 2 * 2 ^ i.val < 4 * 65536 ^ 2 ∧
      4 * 65536 ^ 2 < (2 * (Config.goldRef.get i).toNat + 1) ^ 2 * 2 ^ i.val := by decide

/-! ## Witnesses: for each statement with hypotheses, a case that meets them -/

theorem witness_LegalWordIsItsCommandsWord : decode 0xB000FFFF#32 = .ok (.frc 65535#16) := by decide
theorem witness_RowIsMaskAndMatch :
    0x200F0000#32 &&& (Instr.ldxp 15#4).format.mask = (Instr.ldxp 15#4).matchWord ∧
    0x200F0000#32 &&& (Instr.ldxp 0#4).format.mask = (Instr.ldxp 0#4).matchWord := by decide
theorem witness_IllegalWords : decode 0x80000001#32 = .error .imm16NotZero := by decide
theorem witness_AssemblyRejectsOutOfRangeOperands : 65536 ≤ 65536 ∧ 16 ≤ 16 := by decide
theorem witness_PseudoCommands : State.reset.x = 0#16 ∧ (∃ t, exec .est State.reset = .next t) ∧
    ∃ u, execAll Source.estm.expand State.reset = .next u := ⟨rfl, ⟨_, rfl⟩, ⟨_, rfl⟩⟩
theorem witness_LoadGoldenReference :
    ({ State.reset with i := 15#4 } : State).i = 15#4 ∧ State.reset.i = 0#4 ∧
    Instr.nr ∈ [Instr.red, .seed, .nr, .est] ∧ ∃ t, exec .nr (withXYA 17#16 16384#16 0#16) = .next t :=
  ⟨rfl, rfl, by decide, ⟨_, rfl⟩⟩
theorem witness_SeedLookUp : State.reset.s = 0#4 ∧ ({ State.reset with s := 7#4 } : State).s = 7#4 := ⟨rfl, rfl⟩
theorem witness_SeedEntryZeroIsNeverRead : 1 ≤ State.reset.n.toNat := by decide
/-- The limit itself and the first product above it (section 2.5). -/
theorem witness_NewtonIteration :
    (6 * (46341 * 46341 / 2 ^ 16) ≤ 3 * 2 ^ 16 ∧ (withXYA 6#16 46341#16 0#16).y.toNat = 46341) ∧
    3 * 2 ^ 16 < 6 * (46342 * 46342 / 2 ^ 16) ∧ (withXYA 6#16 46342#16 0#16).y.toNat = 46342 := by decide
/-- The largest working value, and the largest product without underflow. -/
theorem witness_TemporariesNeverWrap : (65535#32 : Word).toNat ≤ 65535 ∧ NewtonSafe 6#16 46341#16 := by decide
/-- The two sides of the limit of `dec4`, and of the two clauses on leading zeros. -/
theorem witness_NumbersAsText :
    (9999 ≤ 9999 ∧ dec4 9999 = [0x39#8, 0x39#8, 0x39#8, 0x39#8]) ∧
    (9999 < 10000 ∧ dec4 10000 = [0x31#8, 0x30#8, 0x30#8, 0x30#8, 0x30#8]) ∧
    (decimal 0 = [0x30#8] ∧ decimal 9 = [0x39#8] ∧ decimal 10 = [0x31#8, 0x30#8]) := by decide
theorem witness_NewtonTruncationOnlyForInputZero :
    (NewtonSafe 0#16 43691#16 ∧ 65535 < (newtonWide 0#16 43691#16).toNat) ∧
    (NewtonSafe 0#16 43690#16 ∧ (newtonWide 0#16 43690#16).toNat = 65535) ∧
    (NewtonSafe 1#16 65535#16 ∧ (newtonWide 1#16 65535#16).toNat = 65535) := by decide
theorem witness_EstimateIsSentinelOrThreeIterations : State.reset.x = 0#16 ∧ (withXYA 1#16 0#16 0#16).x ≠ 0#16 := by decide
theorem witness_EstimateAgreesWithPrimitivePath : (withXYA 65535#16 0#16 0#16).x ≠ 0#16 := by decide
theorem witness_ReferenceSeedsNeverUnderflow :
    Params.ref.seed = Config.seedRef ∧ (withXYA 50600#16 0#16 0#16).x ≠ 0#16 := ⟨rfl, by decide⟩
theorem witness_ErrorOfEstimate : (withXYA 0#16 65535#16 1#16).a ≠ 0#16 ∧ (withXYA 0#16 5#16 0#16).a = 0#16 := by decide
theorem witness_SweepRecordsDependOnRomsAlone : (sweep Params.ref State.reset).flag .uf = false := by decide
theorem witness_SweepReadsFourSeeds :
    ∀ k ∈ [1#4, 2#4, 4#4, 8#4],
      romRead Config.seedRef k = romRead ((Config.seedRef.set 3 7#16).set 15 9#16) k := by decide
theorem witness_empty_host : State.reset.host = [] := rfl
theorem witness_StepRunsDecodedCommand :
    (State.reset.issue [0xD0000000#32]).host = [.command 0xD0000000#32] ∧ decode 0xD0000000#32 = .ok .swp := by decide
theorem witness_IllegalWordSetsOnlyIL :
    (State.reset.issue [0xFFFFFFFF#32]).host = [.command 0xFFFFFFFF#32] ∧
    decode 0xFFFFFFFF#32 = .error .reservedOpcode := by decide
theorem witness_ResetState : ({ withXYA 9#16 8#16 7#16 with host := [.reset] } : State).host = [.reset] := rfl
theorem witness_ResetDuringCommand :
    ({ State.reset with host := [.commandCutByReset 0xD0000000#32] } : State).host = [.commandCutByReset 0xD0000000#32] ∧
    flagSticky .uf = true ∧ ({ State.reset with status := 1#4 } : State).flag .uf = true ∧
    ∃ t, exec .nr { State.reset with status := 1#4 } = .next t := ⟨rfl, rfl, rfl, ⟨_, rfl⟩⟩
theorem witness_StickyFlagsStay :
    flagSticky .dz = true ∧ ({ State.reset with status := 2#4 } : State).flag .dz = true ∧
    ∃ t, step (({ State.reset with status := 2#4 } : State).issue [0x90000000#32]) = .next t := ⟨rfl, rfl, ⟨_, rfl⟩⟩
/-- Every command answers a next state from reset: the hypothesis of `FlagWriters` and `RegisterWriters`. -/
theorem witness_exec_next (i : Instr) : ∃ t, exec i State.reset = .next t := by cases i <;> exact ⟨_, rfl⟩
theorem witness_StepKeepsInvariant :
    State.reset.Inv ∧ ∃ t, step (State.reset.issue [0x60000000#32]) = .next t := ⟨by decide, ⟨_, rfl⟩⟩
theorem witness_OutputOnlyGrows : ∃ t, step (State.reset.issue [0xC0000000#32]) = .next t := ⟨_, rfl⟩
theorem witness_CommandsIgnoreStatusOutAndF :
    AgreeOnOperands State.reset { State.reset with status := 15#4, f := 1#16, out := [⟨1#16, 2#16, 3#16, 4#16, 5#32⟩] } := by
  decide
theorem witness_RunObservationForgetsThePast :
    State.reset.draws = ({ withXYA 9#16 8#16 7#16 with status := 15#4, out := [⟨1#16, 2#16, 3#16, 4#16, 5#32⟩] } : State).draws :=
  rfl
/-- Two states with a sweep to run that differ in their records. -/
theorem witness_StepIgnoresEarlierRecords :
    let s := State.reset.issue [0xD0000000#32]
    let u := s.setOut [⟨1#16, 2#16, 3#16, 4#16, 5#32⟩]
    AgreeOnOperands s u ∧ s.f = u.f ∧ s.status = u.status ∧ s.host = u.host ∧ s.host ≠ [] := by
  decide

end Sys2Proof.Tests
end

section
/-!
PROOF. The state after power-on and after a reset (10_state.md R23).
-/

namespace Sys2Proof.Machine

/-- Power-on puts every register and `STATUS` at its reset value (R23). -/
theorem reset_hasResetRegisters : HasResetRegisters State.reset := by decide

/-- A reset puts every register and `STATUS` at its reset value, in whatever state the block is (R23). -/
theorem applyReset_hasResetRegisters (s : State) : HasResetRegisters (applyReset s) := by
  rw [applyReset_eq]
  exact reset_hasResetRegisters

/-- A reset does not erase `OUT` (R20, R23). -/
@[simp] theorem applyReset_out (s : State) : (applyReset s).out = s.out := rfl

/-- A step whose input is a reset takes the input off the host's list and resets the block (R80). -/
theorem step_of_host_reset (s : State) (rest : List HostInput) (h : s.host = .reset :: rest) :
    step s = .next (applyReset (s.setHost rest)) := by
  simp only [step, serveNext, h, serve]

/-- Settles O38: power-on is the reset record itself, and a step that takes a reset input is `applyReset`, which writes every
register and keeps `OUT`. -/
theorem resetState : Obligations.ResetState := by
  refine ⟨reset_hasResetRegisters, rfl, fun s rest h => ?_⟩
  have hout : (applyReset (s.setHost rest)).out = s.out := by
    rw [applyReset_out, State.setHost_out]
  exact ⟨_, step_of_host_reset s rest h, applyReset_hasResetRegisters _, hout⟩

end Sys2Proof.Machine
end

section
/-!
PROOF. Decoding in terms of the four fields of a word, and the mask-and-match rows of R40 (30_encoding.md R38 to R41).
-/

namespace Sys2Proof

/-! ## Words and their fields (R38) -/

/-- A word is its four fields. -/
theorem word_eq_iff_fields (w v : Word) :
    w = v ↔ fieldOp w = fieldOp v ∧ fieldMbz w = fieldMbz v ∧ fieldIdx w = fieldIdx v ∧ fieldImm16 w = fieldImm16 v := by
  refine ⟨fun h => by simp [h], fun ⟨hop, hmbz, hidx, himm⟩ => BitVec.eq_of_toNat_eq ?_⟩
  rw [← BitVec.toNat_inj, toNat_fieldOp, toNat_fieldOp] at hop
  rw [← BitVec.toNat_inj, toNat_fieldMbz, toNat_fieldMbz] at hmbz
  rw [← BitVec.toNat_inj, toNat_fieldIdx, toNat_fieldIdx] at hidx
  rw [← BitVec.toNat_inj, toNat_fieldImm16, toNat_fieldImm16] at himm
  omega

theorem fieldOp_and (w v : Word) : fieldOp (w &&& v) = fieldOp w &&& fieldOp v := BitVec.extractLsb'_and

theorem fieldMbz_and (w v : Word) : fieldMbz (w &&& v) = fieldMbz w &&& fieldMbz v := BitVec.extractLsb'_and

theorem fieldIdx_and (w v : Word) : fieldIdx (w &&& v) = fieldIdx w &&& fieldIdx v := BitVec.extractLsb'_and

theorem fieldImm16_and (w v : Word) : fieldImm16 (w &&& v) = fieldImm16 w &&& fieldImm16 v := BitVec.extractLsb'_and

/-- The match column holds the opcode and nothing below it (R40). -/
theorem matchWord_fields (i : Instr) :
    fieldOp i.matchWord = i.opcode ∧ fieldMbz i.matchWord = 0 ∧ fieldIdx i.matchWord = 0 ∧ fieldImm16 i.matchWord = 0 := by
  have h : ∀ op : Nibble, fieldOp (op.toWord <<< 28) = op ∧ fieldMbz (op.toWord <<< 28) = 0 ∧
      fieldIdx (op.toWord <<< 28) = 0 ∧ fieldImm16 (op.toWord <<< 28) = 0 := by decide
  exact h i.opcode

/-- The mask column fixes `op` and `mbz` in every format, `idx` in all but I, `imm16` in all but V (R38, R40). -/
theorem mask_fields (f : Format) :
    fieldOp f.mask = BitVec.allOnes 4 ∧ fieldMbz f.mask = BitVec.allOnes 8 ∧
    fieldIdx f.mask = (if f = .i then 0 else BitVec.allOnes 4) ∧
    fieldImm16 f.mask = (if f = .v then 0 else BitVec.allOnes 16) := by
  cases f <;> decide

/-- `w & mask == match`, field by field (R40). -/
theorem and_mask_eq_matchWord_iff (w : Word) (i : Instr) :
    w &&& i.format.mask = i.matchWord ↔
      fieldOp w = i.opcode ∧ fieldMbz w = 0 ∧ (i.format ≠ .i → fieldIdx w = 0) ∧ (i.format ≠ .v → fieldImm16 w = 0) := by
  obtain ⟨mop, mmbz, midx, mimm⟩ := matchWord_fields i
  obtain ⟨kop, kmbz, kidx, kimm⟩ := mask_fields i.format
  rw [word_eq_iff_fields, fieldOp_and, fieldMbz_and, fieldIdx_and, fieldImm16_and, mop, mmbz, midx, mimm,
    kop, kmbz, kidx, kimm]
  cases i.format <;> simp [-BitVec.reduceAllOnes]

/-! ## The decoder (R40, R41) -/

theorem idxField_of_format_ne {i : Instr} (h : i.format ≠ .i) : i.idxField = 0 := by
  cases i
  case ldxp => exact absurd rfl h
  all_goals rfl

theorem imm16Field_of_format_ne {i : Instr} (h : i.format ≠ .v) : i.imm16Field = 0 := by
  cases i
  case ldx | ldy | lda | frc => exact absurd rfl h
  all_goals rfl

/-- What the decoder accepts: the word whose fields are the command's, those that its format lacks being 0 (R38, R40). -/
theorem decode_eq_ok_iff (w : Word) (i : Instr) :
    decode w = .ok i ↔
      fieldOp w = i.opcode ∧ fieldMbz w = 0 ∧ fieldIdx w = i.idxField ∧ fieldImm16 w = i.imm16Field := by
  constructor
  · unfold decode
    intro h
    split at h
    case h_14 => cases h
    case h_2 hop =>
      obtain ⟨hmbz, himm, rfl⟩ := (decodeI_eq_ok_iff _ _ _).1 h
      exact ⟨BitVec.eq_of_toNat_eq hop, hmbz, rfl, himm⟩
    case h_1 hop | h_3 hop | h_4 hop | h_11 hop =>
      obtain ⟨hmbz, hidx, rfl⟩ := (decodeV_eq_ok_iff _ _ _).1 h
      exact ⟨BitVec.eq_of_toNat_eq hop, hmbz, hidx, rfl⟩
    all_goals
      obtain ⟨hmbz, hidx, himm, rfl⟩ := (decodeZ_eq_ok_iff _ _ _).1 h
      exact ⟨BitVec.eq_of_toNat_eq ‹_›, hmbz, hidx, himm⟩
  · rintro ⟨hop, hmbz, hidx, himm⟩
    unfold decode
    rw [hop]
    cases i
    case ldxp => exact (decodeI_eq_ok_iff _ _ _).2 ⟨hmbz, himm, congrArg _ hidx⟩
    case ldx | ldy | lda | frc => exact (decodeV_eq_ok_iff _ _ _).2 ⟨hmbz, hidx, congrArg _ himm⟩
    all_goals exact (decodeZ_eq_ok_iff _ _ _).2 ⟨hmbz, hidx, himm, rfl⟩

/-- Settles O4: both sides read field by field; the mask lets through the one field that the row's format gives to the
operand, and rows that match one word have its `op` for their opcode. -/
theorem rowIsMaskAndMatch : Obligations.RowIsMaskAndMatch := by
  refine ⟨fun w i => ?_, fun w i j hi hj => ?_⟩
  · rw [decode_eq_ok_iff, and_mask_eq_matchWord_iff, ← toNat_fieldImm16,
      show w.toNat / 65536 % 16 = (fieldIdx w).toNat from (toNat_fieldIdx w).symm]
    cases hf : i.format with
    | z =>
      have hidx : i.idxField = 0 := idxField_of_format_ne (by simp [hf])
      have himm : i.imm16Field = 0 := imm16Field_of_format_ne (by simp [hf])
      simp [hidx, himm]
    | v =>
      have hidx : i.idxField = 0 := idxField_of_format_ne (by simp [hf])
      simp [hidx, BitVec.toNat_inj, eq_comm, and_assoc]
    | i =>
      have himm : i.imm16Field = 0 := imm16Field_of_format_ne (by simp [hf])
      simp [himm, BitVec.toNat_inj, eq_comm (a := i.idxField), and_comm (a := fieldIdx w = i.idxField), and_assoc]
  · obtain ⟨hopi, -⟩ := (and_mask_eq_matchWord_iff w i).1 hi
    obtain ⟨hopj, -⟩ := (and_mask_eq_matchWord_iff w j).1 hj
    exact hopi.symm.trans hopj

/-! ## Illegal words (R41) -/

/-- What the Z format refuses. -/
theorem exists_decodeZ_eq_error_iff (w : Word) (i : Instr) :
    (∃ r, decodeZ w i = .error r) ↔ fieldMbz w ≠ 0 ∨ fieldIdx w ≠ 0 ∨ fieldImm16 w ≠ 0 := by
  unfold decodeZ
  split_ifs <;> simp_all

/-- What the V format refuses. -/
theorem exists_decodeV_eq_error_iff (w : Word) (i : Half → Instr) :
    (∃ r, decodeV w i = .error r) ↔ fieldMbz w ≠ 0 ∨ fieldIdx w ≠ 0 := by
  unfold decodeV
  split_ifs <;> simp_all

/-- What the I format refuses. -/
theorem exists_decodeI_eq_error_iff (w : Word) (i : Nibble → Instr) :
    (∃ r, decodeI w i = .error r) ↔ fieldMbz w ≠ 0 ∨ fieldImm16 w ≠ 0 := by
  unfold decodeI
  split_ifs <;> simp_all

/-- What the decoder refuses, by opcode: the reserved ones, and in each row the must-be-zero fields of its format (R41). -/
theorem exists_decode_eq_error_iff (w : Word) :
    (∃ r, decode w = .error r) ↔
      (fieldOp w).toNat ∈ [0x0, 0xE, 0xF] ∨ fieldMbz w ≠ 0 ∨
      ((fieldOp w).toNat ∈ [0x1, 0x3, 0x4, 0xB, 0x5, 0x6, 0x7, 0x8, 0x9, 0xA, 0xC, 0xD] ∧ fieldIdx w ≠ 0) ∨
      ((fieldOp w).toNat ∈ [0x2, 0x5, 0x6, 0x7, 0x8, 0x9, 0xA, 0xC, 0xD] ∧ fieldImm16 w ≠ 0) := by
  unfold decode
  split
  case h_14 =>
    have hreserved : (fieldOp w).toNat ∈ [0x0, 0xE, 0xF] := by
      have := (fieldOp w).isLt
      simp only [imp_false, List.mem_cons, List.not_mem_nil, or_false] at *
      omega
    simp [hreserved]
  case h_2 hop => simp [exists_decodeI_eq_error_iff, hop]
  case h_1 hop | h_3 hop | h_4 hop | h_11 hop => simp [exists_decodeV_eq_error_iff, hop]
  all_goals simp [exists_decodeZ_eq_error_iff, *]

end Sys2Proof

namespace Sys2Proof.Machine

/-- An illegal word raises `IL` and does nothing else (R41, R67). -/
theorem acceptWord_of_error {w : Word} {r : IllegalReason} (s : State) (h : decode w = .error r) :
    acceptWord w s = .next (s.raise .il) := by
  simp only [acceptWord, h]

/-- Settles O5: the clauses of R41 are what the decoder refuses, read as numbers. -/
theorem illegalWords : Obligations.IllegalWords := by
  refine ⟨fun w => ?_, fun w r s h => ?_, ⟨.reservedOpcode, by decide⟩, ⟨.reservedOpcode, by decide⟩⟩
  · rw [exists_decode_eq_error_iff, toNat_fieldOp, ne_eq (fieldMbz w), ne_eq (fieldIdx w), ne_eq (fieldImm16 w),
      ← BitVec.toNat_inj, ← BitVec.toNat_inj, ← BitVec.toNat_inj, toNat_fieldMbz, toNat_fieldIdx, toNat_fieldImm16]
    rfl
  · rw [acceptWord_of_error s h, raise_eq]
    rfl

end Sys2Proof.Machine
end

section
/-!
PROOF. The pseudo-commands (30_encoding.md R43): their effects as named operations, and what tells `EST` from `ESTM`.
-/

namespace Sys2Proof.Machine

/-- `ITER k` is one sweep iteration (R43, R61). -/
theorem foldl_effect_iter (p : Params) (k : Nat) (s : State) :
    (Source.iter k).expand.foldl (fun t i => effect p i t) s = sweepIteration p (BitVec.ofNat 4 k) s := rfl

/-- `ESTM` is the non-zero path of the estimate (R43, R56). -/
theorem execAll_estm (s : State) : execAll Source.estm.expand s = .next (refine Config.params s) := rfl

/-- `ITER` for each index of a list in turn is a fold of sweep iterations. -/
theorem execAll_flatMap_iter (ks : List Nat) (s : State) :
    execAll (ks.flatMap fun k => (Source.iter k).expand) s =
      .next (ks.foldl (fun t k => sweepIteration Config.params (BitVec.ofNat 4 k) t) s) := by
  simp only [execAll_eq_foldl, List.foldl_flatMap, foldl_effect_iter]

/-- `SWP` is `ITER 0` to `ITER 15` in turn (R43, R61). -/
theorem exec_swp_eq_execAll_iter (s : State) :
    exec .swp s = execAll ((List.range 16).flatMap fun k => (Source.iter k).expand) s := by
  rw [execAll_flatMap_iter, exec_eq_effect, effect, sweep, sweepExponents, List.foldl_map]

/-- The non-zero path of the estimate writes no flag but `UF` (R53, R68). -/
theorem flag_refine_of_ne_uf (p : Params) (s : State) {g : Flag} (hg : g ≠ .uf) : (refine p s).flag g = s.flag g := by
  obtain ⟨y, st, k, h, hst⟩ := refine_frame p s
  have hbit : st.getLsbD (flagBit g) = s.status.getLsbD (flagBit g) := by
    rcases hst with rfl | rfl
    · rfl
    · exact (raise_bit s.status .uf g).trans (by rw [decide_eq_false hg.symm, Bool.or_false])
  rw [h]
  exact hbit

/-- The non-zero path of the estimate leaves in `N` what `RED` wrote there. -/
theorem refine_n (p : Params) (s : State) : (refine p s).n = (rangeReduce s.x).1 := by
  obtain ⟨y, st, k, h, -⟩ := refine_frame p s
  rw [h]

/-- Settles O8: the expansions are the table of R43; `SWP` is the fold of the same iterations; on input 0 `EST` takes the
sentinel path, which writes `ZS` and not `N`, and `ESTM` reduces, which writes `N` and not `ZS`. -/
theorem pseudoCommands : Obligations.PseudoCommands := by
  refine ⟨fun v => by simp [Source.expand], fun k => by simp [Source.expand], rfl, exec_swp_eq_execAll_iter,
    fun s t u hx ht hu => ?_⟩
  have ht' : estimate Config.params s = t := by simpa [exec_eq_effect, effect] using ht
  have hu' : refine Config.params s = u := by simpa [execAll_estm] using hu
  have hzs : t.flag .zs = true := by simp [← ht', estimate, hx]
  have htn : t.n = s.n := by rw [← ht', estimate_of_zero _ _ hx]
  have hun : u.n = 1#4 := by
    rw [← hu', refine_n, hx]
    decide
  exact ⟨hzs, hu' ▸ flag_refine_of_ne_uf _ s (by decide), htn, hun⟩

end Sys2Proof.Machine
end

section
/-!
PROOF. The operand loads (40_load.md R45 to R49): their words, what they write, and that the estimate path reads neither `A`
nor the golden ROM.
-/

namespace Sys2Proof

/-! ## The word of a command, by its format (R40, R42) -/

/-- In the Z format the word is the match column. -/
theorem encode_of_format_z {i : Instr} (h : i.format = .z) : encode i = i.matchWord := by
  rw [encode, idxField_of_format_ne (by simp [h]), imm16Field_of_format_ne (by simp [h])]
  simp [Instr.matchWord, Nibble.toWord, Half.toWord]

/-- In the V format the word is the match column with the operand in its low half. -/
theorem encode_of_format_v {i : Instr} (h : i.format = .v) : encode i = i.matchWord ||| i.imm16Field.toWord := by
  rw [encode, idxField_of_format_ne (by simp [h])]
  simp [Instr.matchWord, Nibble.toWord]

/-- In the I format the word is the match column with the operand in bits 19:16. -/
theorem encode_of_format_i {i : Instr} (h : i.format = .i) : encode i = i.matchWord ||| i.idxField.toWord <<< 16 := by
  rw [encode, imm16Field_of_format_ne (by simp [h])]
  simp [Instr.matchWord, Half.toWord]

end Sys2Proof

namespace Sys2Proof.Machine

/-! ## `LDX` and `LDY` -/

/-- Settles O9: both effects are the write to one field, and both words are of the V format. -/
theorem loadInputAndEstimate : Obligations.LoadInputAndEstimate := by
  intro imm16 s
  refine ⟨exec_eq_effect _ _, ?_, exec_eq_effect _ _, ?_⟩
  all_goals
    rw [encode_of_format_v rfl]
    simp [Instr.matchWord, Instr.opcode, Nibble.toWord, Instr.imm16Field]

/-! ## `LDXP` -/

/-- The largest exponent gives 32768, which fits 16 bits (R46). -/
theorem two_pow_nibble_le (idx : Nibble) : 2 ^ idx.toNat ≤ 32768 :=
  Nat.pow_le_pow_right (by decide) (Nat.le_of_lt_succ idx.isLt)

/-- The shift of R46 is the power of two as a number. -/
theorem powerOfTwo_eq_ofNat (idx : Nibble) : powerOfTwo idx = BitVec.ofNat 16 (2 ^ idx.toNat) :=
  BitVec.eq_of_toNat_eq (by simp [powerOfTwo, Nat.shiftLeft_eq])

/-- Settles O11: the shift is the power of two, which no 4-bit exponent takes beyond 32768; the word is of the I format.
`loadExponent` itself is the operation of the model. -/
theorem ldxpLoadExponent : Obligations.LoadExponent := by
  intro idx s
  have hle := two_pow_nibble_le idx
  refine ⟨?_, Nat.mod_eq_of_lt (by omega), Nat.one_le_two_pow, hle, ?_⟩
  · rw [exec_eq_effect, effect, loadExponent_eq, powerOfTwo_eq_ofNat]
  · rw [encode_of_format_i rfl]
    simp [Instr.matchWord, Instr.opcode, Nibble.toWord, Instr.idxField]

/-! ## `LDG` -/

/-- `GOLD[0] = 65535` (R24). -/
theorem romRead_gold_zero : romRead Config.gold 0#4 = 65535#16 := by
  simp [romRead, Config.gold, Vector.get_eq_getElem]

/-- `GOLD[15] = 362` (R24). -/
theorem romRead_gold_fifteen : romRead Config.gold 15#4 = 362#16 := by
  simp [romRead, Config.gold, Vector.get_eq_getElem]

/-- `LDG` completes and writes `A` alone (R49). -/
theorem exec_ldg (s : State) : exec .ldg s = .next { s with a := romRead Config.gold s.i } :=
  exec_eq_effect s .ldg

/-! ## The estimate path does not read `A`: a write to `A` before it is a write to `A` after it -/

section
variable (p : Params) (s : State) (v : Half)

theorem reduce_setA : reduce (s.setA v) = (reduce s).setA v := rfl

theorem lookUpSeed_setA : lookUpSeed p (s.setA v) = (lookUpSeed p s).setA v := rfl

theorem newton_setA : newton p (s.setA v) = (newton p s).setA v := by
  by_cases h : NewtonSafe s.x s.y
  · rw [newton_of_safe p s h, newton_of_safe p (s.setA v) h]
    rfl
  · rw [newton_of_underflow p s h, newton_of_underflow p (s.setA v) h]
    rfl

theorem refine_setA : refine p (s.setA v) = (refine p s).setA v := by
  simp only [refine, reduce_setA, lookUpSeed_setA, newton_setA]

theorem estimate_setA : estimate p (s.setA v) = (estimate p s).setA v := by
  by_cases h : s.x = 0#16
  · rw [estimate_of_zero p s h, estimate_of_zero p (s.setA v) h]
    rfl
  · rw [estimate_of_ne_zero p s h, estimate_of_ne_zero p (s.setA v) h, ← refine_setA]
    rfl

/-- No command of the estimate path reads `A` or writes it (R49). -/
theorem effect_setA_of_estimatePath {i : Instr} (hi : i ∈ [.red, .seed, .nr, .est]) :
    effect p i (s.setA v) = (effect p i s).setA v := by
  simp only [List.mem_cons, List.not_mem_nil, or_false] at hi
  obtain rfl | rfl | rfl | rfl := hi
  · exact reduce_setA s v
  · exact lookUpSeed_setA p s v
  · exact newton_setA p s v
  · exact estimate_setA p s v

end

/-! ## The estimate path does not read the golden ROM: it takes from the parameters the seed ROM and the draws alone -/

section
variable (p : Params) (g : Rom) (s : State)

theorem lookUpSeed_gold : lookUpSeed { p with gold := g } s = lookUpSeed p s := rfl

theorem newton_gold : newton { p with gold := g } s = newton p s := rfl

theorem estimate_gold : estimate { p with gold := g } s = estimate p s := rfl

end

/-- Settles O12: `LDG` reads the golden ROM at `I`, two entries of which are pinned; a write to `A` commutes with every command
of the estimate path, and none of them takes the golden ROM from the parameters. -/
theorem loadGoldenReference : Obligations.LoadGoldenReference := by
  refine ⟨exec_ldg, encode_of_format_z rfl, fun s h => ?_, fun s h => ?_, fun i s t v hi h => ?_,
    fun p g s => ⟨lookUpSeed_gold p g s, newton_gold p g s, estimate_gold p g s⟩⟩
  · rw [exec_ldg, h, romRead_gold_fifteen]
  · rw [exec_ldg, h, romRead_gold_zero]
  · have ht : effect Config.params i s = t := by simpa [exec_eq_effect] using h
    rw [exec_eq_effect, ← ht]
    exact congrArg _ (effect_setA_of_estimatePath Config.params s v hi)

end Sys2Proof.Machine
end

section
/-!
PROOF. The range-reduction command (41_range_reduce.md R50): the loop on words makes the steps that exact integers make, and
its bound of 8 is never reached.
-/

namespace Sys2Proof.Machine

/-- `round(w / 4)` in exact integers (R50). -/
def roundedQuarter (w : Nat) : Nat := (w + 2) / 4

/-- From a 16-bit value the steps on words are the steps on numbers. -/
theorem toNat_iterate_reduceStep_toWord (x : Half) (k : Nat) :
    (reduceStep^[k] x.toWord).toNat = roundedQuarter^[k] x.toNat := by
  have hx : x.toWord.toNat ≤ 65535 := by
    rw [toNat_toWord]
    exact Nat.le_of_lt_succ x.isLt
  rw [(toNat_iterate_reduceStep k x.toWord hx).1, toNat_toWord]
  rfl

/-- The bit-width tracker after `k` steps tests the exact value (R51 (a)). -/
theorem needsReduction_iterate_iff (x : Half) (k : Nat) :
    needsReduction (reduceStep^[k] x.toWord) = true ↔ 15 < roundedQuarter^[k] x.toNat := by
  rw [needsReduction_iff, toNat_iterate_reduceStep_toWord]

/-- The loop ends at the least number of steps that gives at most 15, and 7 steps always do (R50, R51 (c)). -/
theorem reduceLoop_toWord_spec (x : Half) :
    ∃ k ≤ 7, reduceLoop 8 x.toWord 0#32 = (reduceStep^[k] x.toWord, BitVec.ofNat 32 k) ∧
      (∀ j < k, 15 < roundedQuarter^[j] x.toNat) ∧ roundedQuarter^[k] x.toNat ≤ 15 := by
  obtain ⟨k, -, hloop, hbefore, hend⟩ := reduceLoop_spec 8 x.toWord 0#32
  simp only [needsReduction_iterate_iff, BitVec.zero_add] at hloop hbefore hend
  have hseven : roundedQuarter^[7] x.toNat ≤ 15 := iterate_seven_le x.toNat (Nat.le_of_lt_succ x.isLt)
  have hk : k ≤ 7 := by
    by_contra hgt
    exact absurd (hbefore 7 (by omega)) (by omega)
  have hstop : roundedQuarter^[k] x.toNat ≤ 15 := by
    by_contra hgt
    exact absurd (hend (by omega)) (by omega)
  exact ⟨k, hk, hloop, hbefore, hstop⟩

/-- The clamp raises 0 to 1 and keeps every other value (R50). -/
theorem toNat_clampToOne (w : Word) : (clampToOne w).toNat = max 1 w.toNat := by
  unfold clampToOne
  split
  case isTrue h => simp [h]
  case isFalse h =>
    have hpos : w.toNat ≠ 0 := fun h0 => h (BitVec.eq_of_toNat_eq h0)
    omega

/-- Everything `rangeReduce` answers: `S` is the least number of rounded divisions by 4 that brings `X` to at most 15, and `N`
is the value they give, clamped to 1; neither is cut by its width of 4 bits (R50). -/
theorem rangeReduce_spec (x : Half) :
    ∃ k ≤ 7, (∀ j < k, 15 < roundedQuarter^[j] x.toNat) ∧ roundedQuarter^[k] x.toNat ≤ 15 ∧
      (rangeReduce x).1.toNat = max 1 (roundedQuarter^[k] x.toNat) ∧ (rangeReduce x).2.toNat = k := by
  obtain ⟨k, hk, hloop, hbefore, hstop⟩ := reduceLoop_toWord_spec x
  refine ⟨k, hk, hbefore, hstop, ?_, ?_⟩
  · simp only [rangeReduce, hloop, BitVec.toNat_setWidth, toNat_clampToOne, toNat_iterate_reduceStep_toWord]
    omega
  · simp only [rangeReduce, hloop, BitVec.toNat_setWidth, BitVec.toNat_ofNat]
    omega

/-- Settles O13: `RED` writes what `rangeReduce` answers, in `N` and `S` alone. -/
theorem rangeReduction : Obligations.RangeReduction := by
  refine ⟨encode_of_format_z rfl, fun s => ?_⟩
  obtain ⟨k, -, hbefore, hstop, hn, hs⟩ := rangeReduce_spec s.x
  refine ⟨k, (rangeReduce s.x).1, (rangeReduce s.x).2, ?_, hbefore, hstop, hn, hs⟩
  rw [exec_eq_effect, effect, reduce_eq]

end Sys2Proof.Machine
end

section
/-!
PROOF. The Newton-Raphson command (43_newton.md R53): its result in exact integers, and what it does where the subtraction
would underflow.
-/

namespace Sys2Proof.Machine

/-- Step 4 keeps the low 16 bits of the exact value, where the subtraction does not underflow (R5, R53). -/
theorem newtonResult_eq_ofNat (x y : Half) (h : NewtonSafe x y) :
    newtonResult x y =
      BitVec.ofNat 16 ((196608 - x.toNat * (y.toNat * y.toNat / 65536)) / 4 * y.toNat / 32768) := by
  rw [newtonResult, ← BitVec.ofNat_toNat, toNat_newtonWide x y h]

/-- `NR` completes with one Newton iteration (R53). -/
theorem exec_nr (s : State) : exec .nr s = .next (newton Config.params s) := exec_eq_effect s .nr

/-- Settles O17: the limit on the product is the precondition `NewtonSafe`. Under it `newton` writes the exact result, cut to 16
bits, in `Y`; without it `newton` raises `UF` and leaves a drawn value there. -/
theorem newtonIteration : Obligations.NewtonIteration := by
  refine ⟨encode_of_format_z rfl, fun s => ⟨fun hle => ?_, fun hlt => ?_⟩⟩
  · have hsafe : NewtonSafe s.x s.y := hle
    refine ⟨_, rfl, ?_⟩
    simp only [exec_nr, newton_of_safe _ s hsafe, newtonResult_eq_ofNat _ _ hsafe, Nat.reducePow, Nat.reduceMul]
  · have hunsafe : ¬ NewtonSafe s.x s.y := Nat.not_le_of_lt hlt
    exact ⟨_, _, by rw [exec_nr, newton_of_underflow _ s hunsafe]⟩

end Sys2Proof.Machine
end

section
/-!
PROOF. The full estimate (44_estimate.md R55, R56): the sentinel path, and the non-zero path as the commands that make it up.
-/

namespace Sys2Proof.Machine

/-- On input 0 `EST` completes with the sentinel in `Y` and `ZS` set, and writes nothing else (R55). -/
theorem exec_est_of_zero (s : State) (h : s.x = 0#16) :
    exec .est s = .next { s with y := 65535#16, status := s.status ||| 0b1000#4 } := by
  rw [exec_eq_effect, effect, estimate_of_zero _ s h]

/-- On any other input `EST` completes with the non-zero path, taken from the state with `ZS` cleared (R55). -/
theorem exec_est_of_ne_zero (s : State) (h : s.x ≠ 0#16) :
    exec .est s = .next (refine Config.params { s with status := s.status &&& 0b0111#4 }) := by
  rw [exec_eq_effect, effect, estimate_of_ne_zero _ s h]

/-- Settles O20: input 0 takes the sentinel path; on any other input `EST` is the non-zero path from the state with `ZS`
cleared, and so are the five commands, which are the expansion of `ESTM`. -/
theorem estimateIsSentinelOrThreeIterations : Obligations.EstimateIsSentinelOrThreeIterations :=
  ⟨encode_of_format_z rfl, exec_est_of_zero,
    fun s h => ⟨_, exec_est_of_ne_zero s h, execAll_estm _⟩⟩

end Sys2Proof.Machine
end

section
/-!
PROOF. The error-computation commands (45_error.md R57, R58): the quotient and the fraction in exact integers, and that neither
is cut by the width of its register.
-/

namespace Sys2Proof.Machine

/-! ## `ERR` -/

/-- The relative error fits `E`: whatever the divisor, it is at most the product `d * 10000` (R57). -/
theorem relativeError_lt (d a : Half) : d.toNat * 10000 / a.toNat < 2 ^ 32 := by
  have hle : d.toNat * 10000 / a.toNat ≤ d.toNat * 10000 := Nat.div_le_self _ _
  have hd := d.isLt
  omega

/-- The division on words is the truncating division of exact integers (R57). -/
theorem relativeError_eq_ofNat (d a : Half) :
    relativeError d a = BitVec.ofNat 32 (d.toNat * 10000 / a.toNat) := by
  rw [← toNat_relativeError, BitVec.ofNat_toNat, BitVec.setWidth_eq]

/-- Against a zero reference `ERR` completes with `E` all ones and `DZ` set (R57). -/
theorem exec_err_of_zero (s : State) (h : s.a = 0#16) :
    exec .err s = .next { s with d := absDiff s.a s.y, e := 0xFFFFFFFF#32, status := s.status ||| 0b0010#4 } := by
  rw [exec_eq_effect, effect, compare_of_zero s h]

/-- Against any other reference `ERR` completes with the exact quotient in `E`, and leaves `STATUS` (R57). -/
theorem exec_err_of_ne_zero (s : State) (h : s.a ≠ 0#16) :
    exec .err s = .next { s with
      d := absDiff s.a s.y, e := BitVec.ofNat 32 ((absDiff s.a s.y).toNat * 10000 / s.a.toNat) } := by
  rw [exec_eq_effect, effect, compare_of_ne_zero s h, relativeError_eq_ofNat]

/-- Settles O23: `D` is `absDiff` of `A` and `Y` in both cases of `A`, and the quotient fits `E`. -/
theorem errorOfEstimate : Obligations.ErrorOfEstimate :=
  ⟨encode_of_format_z rfl, fun s => ⟨absDiff s.a s.y, toNat_absDiff s.a s.y,
    fun h => ⟨exec_err_of_ne_zero s h, relativeError_lt _ _⟩, exec_err_of_zero s⟩⟩

/-! ## `FRC` -/

/-- `FRC` completes and writes `F` alone (R58). -/
theorem exec_frc (imm16 : Half) (s : State) : exec (.frc imm16) s = .next { s with f := frac4 imm16 } :=
  exec_eq_effect s (.frc imm16)

/-- Four digits always suffice (R58): a 16-bit value is less than 65536, so its fraction of 10000 is less than 10000. -/
theorem frac4_le (v : Half) : (frac4 v).toNat ≤ 9999 := by
  have hv := v.isLt
  rw [toNat_frac4]
  omega

/-- Settles O24: the value written is `frac4`, and the word is of the V format. -/
theorem fractionOfRawValue : Obligations.FractionOfRawValue := by
  intro imm16 s
  refine ⟨frac4 imm16, exec_frc imm16 s, toNat_frac4 imm16, frac4_le imm16, rfl, ?_⟩
  rw [encode_of_format_v rfl]
  simp [Instr.matchWord, Instr.opcode, Nibble.toWord, Instr.imm16Field]

end Sys2Proof.Machine
end

section
/-!
PROOF. The report port and the sweep (46_report.md R59 to R62): the record of `EMIT`, the records of `SWP` in their order, and
the text of the numbers of a record.
-/

namespace Sys2Proof.Machine

/-! ## `EMIT` -/

/-- Settles O25: the record appended is the snapshot, and the word is of the Z format. -/
theorem emitAppendsSnapshot : Obligations.EmitAppendsSnapshot :=
  ⟨encode_of_format_z rfl, fun s => exec_eq_effect s .emit⟩

/-! ## `SWP` -/

/-- One sweep iteration appends one record, whose `arg` is the power of two of its exponent (R61). -/
theorem sweepIteration_out (p : Params) (idx : Nibble) (s : State) : ∃ r : Record,
    (sweepIteration p idx s).out = s.out ++ [r] ∧ r.arg = powerOfTwo idx := by
  obtain ⟨y, st, k, hstep, -⟩ := sweepIteration_frame p s idx
  rw [hstep]
  exact ⟨_, rfl, rfl⟩

/-- Sweep iterations one after another each append one record: their `arg` fields are the powers of two of the exponents, in order (R61). -/
theorem foldl_sweepIteration_out (p : Params) (idxs : List Nibble) (s : State) : ∃ records,
    (idxs.foldl (fun t idx => sweepIteration p idx t) s).out = s.out ++ records ∧
      records.map Record.arg = idxs.map powerOfTwo := by
  induction idxs generalizing s with
  | nil => exact ⟨[], by simp⟩
  | cons idx idxs ih =>
    obtain ⟨records, hout, harg⟩ := ih (sweepIteration p idx s)
    obtain ⟨r, hr, hrarg⟩ := sweepIteration_out p idx s
    refine ⟨r :: records, ?_, ?_⟩
    · rw [List.foldl_cons, hout, hr, List.append_assoc, List.singleton_append]
    · rw [List.map_cons, harg, hrarg, List.map_cons]

/-- The powers of two of the sweep's exponents, in order (R62). -/
theorem sweepExponents_powerOfTwo : sweepExponents.map (fun idx => (powerOfTwo idx).toNat) =
    [1, 2, 4, 8, 16, 32, 64, 128, 256, 512, 1024, 2048, 4096, 8192, 16384, 32768] := by decide

/-- Settles O27: the sweep folds one iteration over its sixteen exponents, and each appends one record. -/
theorem sweepReportsInOrder : Obligations.SweepReportsInOrder := by
  intro s
  obtain ⟨records, hout, harg⟩ := foldl_sweepIteration_out Config.params sweepExponents s
  refine ⟨_, records, exec_eq_effect s .swp, hout, ?_⟩
  calc records.map (fun r => r.arg.toNat)
      = (records.map Record.arg).map BitVec.toNat := by rw [List.map_map]; rfl
    _ = sweepExponents.map (fun idx => (powerOfTwo idx).toNat) := by rw [harg, List.map_map]; rfl
    _ = _ := sweepExponents_powerOfTwo

/-! ## The decimal numeral of a number (R60) -/

/-- A digit's byte has the digit's code. -/
theorem toNat_asciiByte_of_isDigit {c : Char} (h : c.isDigit = true) : (asciiByte c).toNat = c.toNat := by
  have hc : 48 ≤ c.toNat ∧ c.toNat ≤ 57 := Char.isDigit_iff_toNat.1 h
  rw [asciiByte, BitVec.toNat_ofNat]
  omega

/-- Every byte of a decimal numeral is a digit. -/
theorem isDigitByte_of_mem_decimal {k : Nat} {b : Byte} (hb : b ∈ decimal k) : IsDigitByte b := by
  obtain ⟨c, hc, rfl⟩ := List.mem_map.1 hb
  have hd := Nat.isDigit_of_mem_toDigits (by decide) (by decide) hc
  rw [IsDigitByte, toNat_asciiByte_of_isDigit hd]
  exact Char.isDigit_iff_toNat.1 hd

/-- Digits read as bytes write the number that they write as characters. -/
theorem digitsNumber_map_asciiByte {cs : List Char} (h : ∀ c ∈ cs, c.isDigit = true) :
    digitsNumber (cs.map asciiByte) = Nat.ofDigitChars 10 cs 0 := by
  rw [digitsNumber, List.foldl_map, Nat.ofDigitChars_eq_foldl]
  refine List.foldl_ext _ _ _ fun acc c hc => ?_
  rw [toNat_asciiByte_of_isDigit (h c hc), Nat.mul_comm]
  rfl

/-- A decimal numeral writes its number. -/
theorem digitsNumber_decimal (k : Nat) : digitsNumber (decimal k) = k := by
  rw [decimal, digitsNumber_map_asciiByte fun c hc => Nat.isDigit_of_mem_toDigits (by decide) (by decide) hc,
    Nat.ofDigitChars_ten_toDigits]

/-- A decimal numeral has as many digits as its number needs. -/
theorem length_decimal_le_iff (k : Nat) {n : Nat} (hn : 0 < n) : (decimal k).length ≤ n ↔ k < 10 ^ n := by
  rw [decimal, List.length_map, Nat.length_toDigits_le_iff (by decide) hn]

/-- A decimal numeral has no leading zero: one digit fewer would not hold its number. -/
theorem decimal_no_leading_zero (k : Nat) : (decimal k).length = 1 ∨ 10 ^ ((decimal k).length - 1) ≤ k := by
  have hpos : 0 < (decimal k).length := by
    rw [decimal, List.length_map]
    exact Nat.length_toDigits_pos
  refine or_iff_not_imp_left.2 fun hne => ?_
  have hshort := (length_decimal_le_iff k (n := (decimal k).length - 1) (by omega)).not
  omega

/-! ## The four digits of a fraction (R60) -/

/-- Leading zeros do not change the number written. -/
theorem digitsNumber_leftpad (n : Nat) (text : List Byte) :
    digitsNumber (text.leftpad n (asciiByte '0')) = digitsNumber text := by
  rw [List.leftpad, digitsNumber, List.foldl_append]
  congr 1
  induction n - text.length with
  | zero => rfl
  | succ m ih => rw [List.replicate_succ, List.foldl_cons]; exact ih

/-- Every byte of `dec4` is a digit: of the numeral, or a zero before it. -/
theorem isDigitByte_of_mem_dec4 {k : Nat} {b : Byte} (hb : b ∈ dec4 k) : IsDigitByte b := by
  rcases List.mem_append.1 hb with hzero | hdec
  · rw [List.eq_of_mem_replicate hzero]
    decide
  · exact isDigitByte_of_mem_decimal hdec

/-- A number up to 9999 is written in four digits. -/
theorem length_dec4 {k : Nat} (hk : k ≤ 9999) : (dec4 k).length = 4 := by
  have hle : (decimal k).length ≤ 4 := (length_decimal_le_iff k (by decide)).2 (by omega)
  rw [dec4, List.length_leftpad, max_eq_left hle]

/-- A number above 9999 is written as its numeral. -/
theorem dec4_eq_decimal {k : Nat} (hk : 9999 < k) : dec4 k = decimal k := by
  have hlong : ¬ (decimal k).length ≤ 4 := (length_decimal_le_iff k (by decide)).not.2 (by omega)
  rw [dec4, List.leftpad, Nat.sub_eq_zero_of_le (by omega), List.replicate_zero, List.nil_append]

/-- Settles O32: the numeral is the library's digits of the number, `dec4` puts zeros before it, and the texts of a line are
read off their definitions, none of which reads `diff`. -/
theorem numbersAsText : Obligations.NumbersAsText :=
  ⟨frac4_le,
    fun k => ⟨fun _ => isDigitByte_of_mem_decimal, digitsNumber_decimal k, decimal_no_leading_zero k⟩,
    fun k => ⟨fun _ => isDigitByte_of_mem_dec4, (digitsNumber_leftpad 4 _).trans (digitsNumber_decimal k),
      length_dec4, dec4_eq_decimal⟩,
    fun _ => ⟨rfl, rfl, rfl, rfl, textBeforeArg, textBetween 1, textBetween 2, textBetween 3, textAfterRel, rfl⟩,
    fun _ _ => rfl⟩

end Sys2Proof.Machine
end

section
/-!
PROOF. The exceptional conditions and the idle block (60_exceptions.md R67, 70_reset_and_hazards.md R77).
-/

namespace Sys2Proof.Machine

/-! ## A step by what the host does next (R77, R83) -/

/-- With no host input pending the block idles (R77). -/
theorem step_of_host_nil (s : State) (h : s.host = []) : step s = .next s := by
  simp only [step, serveNext, h]

/-- A step whose input is a command word takes the input off the host's list and accepts the word (R83). -/
theorem step_of_host_command (s : State) (w : Word) (rest : List HostInput) (h : s.host = .command w :: rest) :
    step s = acceptWord w (s.setHost rest) := by
  simp only [step, serveNext, h, serve]

/-- Settles O34: the step accepts the word with the input taken off, and accepting a word that decodes to no command raises
`IL` alone. -/
theorem illegalWordSetsOnlyIL : Obligations.IllegalWordSetsOnlyIL := by
  intro s w rest r hhost hdecode
  rw [step_of_host_command s w rest hhost, acceptWord_of_error _ hdecode, raise_eq]
  rfl

/-- Settles O35: a step with an empty host list is the idle case of the sequencer. -/
theorem idleBlockHoldsItsState : Obligations.IdleBlockHoldsItsState :=
  step_of_host_nil

end Sys2Proof.Machine
end

section
/-!
PROOF. The word of a command as one number and as its fields, and decoding as the inverse of encoding (30_encoding.md R40 to R44).
-/

namespace Sys2Proof

/-- A 4-bit field loses no bit when it is moved up by at most 28 places. -/
theorem toNat_toWord_shiftLeft (n : Nibble) {k : Nat} (hk : k ≤ 28) : (n.toWord <<< k).toNat = n.toNat <<< k := by
  have hlt : n.toNat * 2 ^ k < 2 ^ 32 := calc
    n.toNat * 2 ^ k < 2 ^ 4 * 2 ^ k := Nat.mul_lt_mul_of_pos_right n.isLt (by positivity)
    _ = 2 ^ (4 + k) := (Nat.pow_add 2 4 k).symm
    _ ≤ 2 ^ 32 := Nat.pow_le_pow_right (by decide) (by omega)
  rw [BitVec.toNat_shiftLeft, Machine.toNat_nibble_toWord, Nat.shiftLeft_eq, Nat.mod_eq_of_lt hlt]

/-- Three fields side by side, as one number. -/
theorem toNat_fields_or (op idx : Nibble) (imm16 : Half) :
    (op.toWord <<< 28 ||| idx.toWord <<< 16 ||| imm16.toWord).toNat =
      op.toNat * 2 ^ 28 + idx.toNat * 2 ^ 16 + imm16.toNat := by
  have hop := op.isLt
  have hidx := idx.isLt
  have himm := imm16.isLt
  have hlow : idx.toNat <<< 16 ||| imm16.toNat = idx.toNat * 2 ^ 16 + imm16.toNat := by
    rw [← Nat.shiftLeft_add_eq_or_of_lt himm, Nat.shiftLeft_eq]
  have hhigh : op.toNat <<< 28 ||| (idx.toNat * 2 ^ 16 + imm16.toNat) =
      op.toNat * 2 ^ 28 + (idx.toNat * 2 ^ 16 + imm16.toNat) := by
    rw [← Nat.shiftLeft_add_eq_or_of_lt (by omega), Nat.shiftLeft_eq]
  rw [BitVec.toNat_or, BitVec.toNat_or, toNat_toWord_shiftLeft op le_rfl,
    toNat_toWord_shiftLeft idx (by decide), Machine.toNat_toWord, Nat.or_assoc, hlow, hhigh, Nat.add_assoc]

/-- Settles O6: the three fields do not overlap, so their union is their sum. -/
theorem wordIsSumOfFields : Obligations.WordIsSumOfFields :=
  fun i => toNat_fields_or i.opcode i.idxField i.imm16Field

/-- The fields of a command's word are the command's, `mbz` being 0 (R38, R42). -/
theorem encode_fields (i : Instr) :
    fieldOp (encode i) = i.opcode ∧ fieldMbz (encode i) = 0 ∧ fieldIdx (encode i) = i.idxField ∧
      fieldImm16 (encode i) = i.imm16Field := by
  have hword := wordIsSumOfFields i
  have hidx := i.idxField.isLt
  have himm := i.imm16Field.isLt
  simp only [← BitVec.toNat_inj, toNat_fieldOp, toNat_fieldMbz, toNat_fieldIdx, toNat_fieldImm16, hword]
  refine ⟨by omega, ?_, by omega, by omega⟩
  rw [show (0 : BitVec 8).toNat = 0 from rfl]
  omega

/-- Settles O2: the decoder accepts a word by its fields, and those of a command's word are the command's. -/
theorem decodeInvertsEncode : Obligations.DecodeInvertsEncode :=
  fun i => (decode_eq_ok_iff _ i).2 (encode_fields i)

/-- Settles O3: a word that decodes to a command has the command's fields, as the command's word has, and a word is its fields. -/
theorem legalWordIsItsCommandsWord : Obligations.LegalWordIsItsCommandsWord := by
  intro w i h
  obtain ⟨hop, hmbz, hidx, himm⟩ := (decode_eq_ok_iff w i).1 h
  obtain ⟨eop, embz, eidx, eimm⟩ := encode_fields i
  exact (word_eq_iff_fields _ _).2
    ⟨eop.trans hop.symm, embz.trans hmbz.symm, eidx.trans hidx.symm, eimm.trans himm.symm⟩

/-- Settles O1: each word is the encoding of its command, evaluated. -/
theorem decodeReadsSpecWords : Obligations.DecodeReadsSpecWords := by
  unfold Obligations.DecodeReadsSpecWords
  decide

/-! ## The ranges of operands (R42) -/

theorem imm16InRange_of_le {n : Nat} (h : 65536 ≤ n) : imm16InRange n = false := by
  simpa [imm16InRange] using h

theorem idxInRange_of_le {n : Nat} (h : 16 ≤ n) : idxInRange n = false := by
  simpa [idxInRange] using h

theorem imm16InRange_toNat (v : Half) : imm16InRange v.toNat = true := decide_eq_true v.isLt

theorem idxInRange_toNat (k : Nibble) : idxInRange k.toNat = true := decide_eq_true k.isLt

/-- Settles O7: a source command with an operand is well formed exactly when the operand is in the range of its field. -/
theorem assemblyRejectsOutOfRangeOperands : Obligations.AssemblyRejectsOutOfRangeOperands := by
  refine ⟨fun n hn => ?_, fun n hn => ?_, fun v => ?_, fun k => ?_⟩
  · simp [Source.assemble, Source.wellFormed, imm16InRange_of_le hn]
  · simp [Source.assemble, Source.wellFormed, idxInRange_of_le hn]
  · simp [Source.assemble, Source.wellFormed, imm16InRange_toNat v, Source.expand]
  · simp [Source.assemble, Source.wellFormed, idxInRange_toNat k, Source.expand]

end Sys2Proof
end

section
/-!
PROOF. What a command reads (10_state.md R11, R18, R20): the operand registers and the draw count alone. One predicate on
functions of the state says it, every operation of the model satisfies it, and composition keeps it.
-/

namespace Sys2Proof.Machine

/-- `STATUS` is its four flags (R18). -/
theorem status_eq_of_flags {s u : State} (h : ∀ b, s.flag b = u.flag b) : s.status = u.status := by
  have hbits : ∀ st st' : Nibble,
      (∀ b, st.getLsbD (flagBit b) = st'.getLsbD (flagBit b)) → st = st' := by
    intro st st' hb
    have huf := hb .uf
    have hdz := hb .dz
    have hil := hb .il
    have hzs := hb .zs
    clear hb
    revert st st'
    decide
  exact hbits _ _ h

theorem agreeOnOperands_refl (s : State) : AgreeOnOperands s s := ⟨rfl, rfl, rfl, rfl, rfl, rfl, rfl, rfl, rfl⟩

/-- The function reads nothing but what `AgreeOnOperands` names: in two states that agree there it leaves states that agree
there and appends the same records, it keeps an equal `F` equal and every equal flag equal; and it leaves the host's inputs. -/
structure ReadsOperandsOnly (g : State → State) : Prop where
  agree : ∀ {s u}, AgreeOnOperands s u → AgreeOnOperands (g s) (g u)
  f : ∀ {s u}, AgreeOnOperands s u → s.f = u.f → (g s).f = (g u).f
  flag : ∀ {s u}, AgreeOnOperands s u → ∀ b, s.flag b = u.flag b → (g s).flag b = (g u).flag b
  out : ∀ {s u}, AgreeOnOperands s u → ∃ records, (g s).out = s.out ++ records ∧ (g u).out = u.out ++ records
  host : ∀ s, (g s).host = s.host

namespace ReadsOperandsOnly

variable {g k : State → State}

/-- An equal `STATUS` stays equal, since each of its flags does. -/
theorem status (hg : ReadsOperandsOnly g) {s u : State} (h : AgreeOnOperands s u) (hst : s.status = u.status) :
    (g s).status = (g u).status :=
  status_eq_of_flags fun b => hg.flag h b (by rw [State.flag, State.flag, hst])

/-- `OUT` grows at its end. -/
theorem out_append (hg : ReadsOperandsOnly g) (s : State) : ∃ records, (g s).out = s.out ++ records := by
  obtain ⟨records, h, -⟩ := hg.out (s := s) (u := s) (agreeOnOperands_refl s)
  exact ⟨records, h⟩

theorem newRecords_eq (hg : ReadsOperandsOnly g) {s u : State} (h : AgreeOnOperands s u) :
    newRecords s (g s) = newRecords u (g u) := by
  obtain ⟨records, hs, hu⟩ := hg.out h
  simp only [newRecords, hs, hu, List.drop_left]

/-! ### Ways to make such a function -/

/-- A function that writes operand registers alone, from operand registers alone. -/
theorem of_frame (hagree : ∀ {s u}, AgreeOnOperands s u → AgreeOnOperands (g s) (g u))
    (hframe : ∀ s, (g s).f = s.f ∧ (g s).status = s.status ∧ (g s).out = s.out ∧ (g s).host = s.host) :
    ReadsOperandsOnly g where
  agree := hagree
  f _ hf := by rw [(hframe _).1, (hframe _).1, hf]
  flag _ b hb := by
    have hflag (s : State) : (g s).flag b = s.flag b := by rw [State.flag, (hframe s).2.1, State.flag]
    rw [hflag, hflag, hb]
  out _ := ⟨[], by simp [(hframe _).2.2.1]⟩
  host s := (hframe s).2.2.2

/-- A function that writes `STATUS` alone, each flag from its old value. -/
theorem of_writes_status {st : State → Nibble}
    (hflag : ∀ s u b, s.flag b = u.flag b → (st s).getLsbD (flagBit b) = (st u).getLsbD (flagBit b)) :
    ReadsOperandsOnly fun s => s.setStatus (st s) where
  agree h := h
  f _ hf := hf
  flag _ b hb := hflag _ _ b hb
  out _ := ⟨[], by simp⟩
  host _ := rfl

theorem id : ReadsOperandsOnly fun s => s := of_frame (fun h => h) fun _ => ⟨rfl, rfl, rfl, rfl⟩

theorem comp (hk : ReadsOperandsOnly k) (hg : ReadsOperandsOnly g) : ReadsOperandsOnly fun s => k (g s) where
  agree h := hk.agree (hg.agree h)
  f h hf := hk.f (hg.agree h) (hg.f h hf)
  flag h b hb := hk.flag (hg.agree h) b (hg.flag h b hb)
  out h := by
    obtain ⟨first, hs, hu⟩ := hg.out h
    obtain ⟨second, hs', hu'⟩ := hk.out (hg.agree h)
    exact ⟨first ++ second, by rw [hs', hs, List.append_assoc], by rw [hu', hu, List.append_assoc]⟩
  host s := (hk.host _).trans (hg.host s)

/-- A case distinction on operand registers. -/
theorem ite {c : State → Prop} [DecidablePred c] (hc : ∀ {s u}, AgreeOnOperands s u → (c s ↔ c u))
    (hg : ReadsOperandsOnly g) (hk : ReadsOperandsOnly k) : ReadsOperandsOnly fun s => if c s then g s else k s where
  agree {s u} h := by
    by_cases hs : c s
    · simpa only [if_pos hs, if_pos ((hc h).1 hs)] using hg.agree h
    · simpa only [if_neg hs, if_neg (mt (hc h).2 hs)] using hk.agree h
  f {s u} h hf := by
    by_cases hs : c s
    · simpa only [if_pos hs, if_pos ((hc h).1 hs)] using hg.f h hf
    · simpa only [if_neg hs, if_neg (mt (hc h).2 hs)] using hk.f h hf
  flag {s u} h b hb := by
    by_cases hs : c s
    · simpa only [if_pos hs, if_pos ((hc h).1 hs)] using hg.flag h b hb
    · simpa only [if_neg hs, if_neg (mt (hc h).2 hs)] using hk.flag h b hb
  out {s u} h := by
    by_cases hs : c s
    · simpa only [if_pos hs, if_pos ((hc h).1 hs)] using hg.out h
    · simpa only [if_neg hs, if_neg (mt (hc h).2 hs)] using hk.out h
  host s := by
    by_cases hs : c s
    · simpa only [if_pos hs] using hg.host s
    · simpa only [if_neg hs] using hk.host s

/-- One such function after another, along a list. -/
theorem foldl {α : Type} {step : State → α → State} (hstep : ∀ a, ReadsOperandsOnly fun s => step s a) (as : List α) :
    ReadsOperandsOnly fun s => as.foldl step s := by
  induction as with
  | nil => exact id
  | cons a as ih => exact ih.comp (hstep a)

end ReadsOperandsOnly

/-! ## The operations of the model -/

section
variable (p : Params)

open ReadsOperandsOnly

theorem readsOperandsOnly_setX (v : Half) : ReadsOperandsOnly fun s => s.setX v :=
  of_frame (fun h => by simp_all [AgreeOnOperands]) fun _ => ⟨rfl, rfl, rfl, rfl⟩

theorem readsOperandsOnly_setY {v : State → Half} (hv : ∀ {s u}, AgreeOnOperands s u → v s = v u) :
    ReadsOperandsOnly fun s => s.setY (v s) :=
  of_frame (fun h => by have := hv h; simp_all [AgreeOnOperands]) fun _ => ⟨rfl, rfl, rfl, rfl⟩

theorem readsOperandsOnly_setA {v : State → Half} (hv : ∀ {s u}, AgreeOnOperands s u → v s = v u) :
    ReadsOperandsOnly fun s => s.setA (v s) :=
  of_frame (fun h => by have := hv h; simp_all [AgreeOnOperands]) fun _ => ⟨rfl, rfl, rfl, rfl⟩

theorem readsOperandsOnly_setF (v : Half) : ReadsOperandsOnly fun s => s.setF v where
  agree h := h
  f _ _ := rfl
  flag _ _ hb := hb
  out _ := ⟨[], by simp⟩
  host _ := rfl

theorem readsOperandsOnly_raise (b : Flag) : ReadsOperandsOnly fun s => s.raise b :=
  of_writes_status fun s u b' h => by rw [raise_bit, raise_bit]; exact congrArg (· || _) h

theorem readsOperandsOnly_writeZs (z : Bool) : ReadsOperandsOnly fun s => s.writeZs z := by
  cases z
  · exact of_writes_status fun s u b h => by rw [(writeZs_bit _ b).2, (writeZs_bit _ b).2]; exact congrArg (· && _) h
  · exact of_writes_status fun s u b h => by rw [(writeZs_bit _ b).1, (writeZs_bit _ b).1]; exact congrArg (· || _) h

theorem readsOperandsOnly_loadExponent (idx : Nibble) : ReadsOperandsOnly (loadExponent idx) :=
  of_frame (fun h => by simp_all [AgreeOnOperands, loadExponent]) fun _ => ⟨rfl, rfl, rfl, rfl⟩

theorem readsOperandsOnly_loadGolden : ReadsOperandsOnly (loadGolden p) :=
  readsOperandsOnly_setA fun h => by simp_all

theorem readsOperandsOnly_reduce : ReadsOperandsOnly reduce :=
  of_frame (fun h => by simp_all [AgreeOnOperands, reduce]) fun _ => ⟨rfl, rfl, rfl, rfl⟩

theorem readsOperandsOnly_lookUpSeed : ReadsOperandsOnly (lookUpSeed p) :=
  readsOperandsOnly_setY fun h => by simp_all

theorem readsOperandsOnly_drawY : ReadsOperandsOnly (drawY p) :=
  of_frame (fun h => by simp_all [AgreeOnOperands, drawY]) fun _ => ⟨rfl, rfl, rfl, rfl⟩

theorem readsOperandsOnly_newton : ReadsOperandsOnly (newton p) :=
  .ite (fun h => by simp_all) ((readsOperandsOnly_drawY p).comp (readsOperandsOnly_raise .uf))
    (readsOperandsOnly_setY fun h => by simp_all)

theorem readsOperandsOnly_refine : ReadsOperandsOnly (refine p) :=
  have hnewton := readsOperandsOnly_newton p
  hnewton.comp (hnewton.comp (hnewton.comp ((readsOperandsOnly_lookUpSeed p).comp readsOperandsOnly_reduce)))

theorem readsOperandsOnly_estimate : ReadsOperandsOnly (estimate p) :=
  .ite (fun h => by simp_all) ((readsOperandsOnly_writeZs true).comp (readsOperandsOnly_setY fun _ => rfl))
    ((readsOperandsOnly_refine p).comp (readsOperandsOnly_writeZs false))

theorem readsOperandsOnly_compare : ReadsOperandsOnly compare :=
  .ite (fun h => by simp_all)
    ((readsOperandsOnly_raise .dz).comp (of_frame (fun h => by simp_all [AgreeOnOperands]) fun _ => ⟨rfl, rfl, rfl, rfl⟩))
    (of_frame (fun h => by simp_all [AgreeOnOperands]) fun _ => ⟨rfl, rfl, rfl, rfl⟩)

theorem readsOperandsOnly_emitRecord : ReadsOperandsOnly emitRecord where
  agree h := h
  f _ hf := hf
  flag _ _ hb := hb
  out {s u} h := ⟨[snapshot s], rfl, by simp_all [emitRecord, snapshot]⟩
  host _ := rfl

theorem readsOperandsOnly_sweepIteration (idx : Nibble) : ReadsOperandsOnly (sweepIteration p idx) :=
  readsOperandsOnly_emitRecord.comp (readsOperandsOnly_compare.comp ((readsOperandsOnly_loadGolden p).comp
    ((readsOperandsOnly_estimate p).comp (readsOperandsOnly_loadExponent idx))))

theorem readsOperandsOnly_sweep : ReadsOperandsOnly (sweep p) :=
  .foldl (readsOperandsOnly_sweepIteration p) sweepExponents

/-- Every command reads operand registers alone. -/
theorem readsOperandsOnly_effect (i : Instr) : ReadsOperandsOnly (effect p i) := by
  cases i with
  | ldx imm16 => exact readsOperandsOnly_setX imm16
  | ldxp idx => exact readsOperandsOnly_loadExponent idx
  | ldy imm16 => exact readsOperandsOnly_setY fun _ => rfl
  | lda imm16 => exact readsOperandsOnly_setA fun _ => rfl
  | ldg => exact readsOperandsOnly_loadGolden p
  | red => exact readsOperandsOnly_reduce
  | seed => exact readsOperandsOnly_lookUpSeed p
  | nr => exact readsOperandsOnly_newton p
  | est => exact readsOperandsOnly_estimate p
  | err => exact readsOperandsOnly_compare
  | frc imm16 => exact readsOperandsOnly_setF (frac4 imm16)
  | emit => exact readsOperandsOnly_emitRecord
  | swp => exact readsOperandsOnly_sweep p

/-- A reset forgets the operand registers, `F` and `STATUS` (R23). -/
theorem readsOperandsOnly_applyReset : ReadsOperandsOnly applyReset where
  agree h := by simp_all [AgreeOnOperands, applyReset_eq]
  f _ _ := rfl
  flag _ _ _ := rfl
  out _ := ⟨[], by simp⟩
  host _ := rfl

/-- What a cut command leaves, if the command reads operand registers alone: the count of records kept is that of the draw (R80). -/
theorem readsOperandsOnly_cutByReset {g : State → State} (hg : ReadsOperandsOnly g) :
    ReadsOperandsOnly fun s => cutByReset p s (g s) where
  agree h := by have := hg.agree h; simp_all [AgreeOnOperands, cutByReset, applyReset_eq]
  f _ _ := rfl
  flag _ _ _ := rfl
  out {s u} h := by
    have hdraws : (g s).draws = (g u).draws := by have := hg.agree h; simp_all
    refine ⟨(newRecords s (g s)).take (p.cutRecords (g s).draws), rfl, ?_⟩
    rw [hg.newRecords_eq h, hdraws]
    rfl
  host s := hg.host s

end

/-- Settles O46: every command completes with an effect that reads operand registers alone. -/
theorem commandsIgnoreStatusOutAndF : Obligations.CommandsIgnoreStatusOutAndF := by
  intro i s u h
  have hi := readsOperandsOnly_effect Config.params i
  exact ⟨_, _, exec_eq_effect s i, exec_eq_effect u i, hi.agree h, hi.newRecords_eq h, hi.f h, hi.status h⟩

/-! ## Accepting words, and a step -/

/-- The next state when a word is accepted: the effect of the command it decodes to, or `IL` raised (R41, R83). -/
def wordEffect (w : Word) (s : State) : State :=
  match decode w with
  | .ok i => effect Config.params i s
  | .error _ => s.raise .il

theorem acceptWord_eq (w : Word) (s : State) : acceptWord w s = .next (wordEffect w s) := by
  unfold wordEffect
  cases h : decode w with
  | ok i => simp [acceptWord, h, exec_eq_effect]
  | error r => simp [acceptWord, h]

/-- Words accepted one after another complete, each on the state the one before left. -/
theorem acceptAll_eq_foldl (words : List Word) (s : State) :
    acceptAll words s = .next (words.foldl (fun t w => wordEffect w t) s) := by
  induction words generalizing s with
  | nil => rfl
  | cons w words ih => simp only [acceptAll, acceptWord_eq, ih, List.foldl_cons]

theorem readsOperandsOnly_wordEffect (w : Word) : ReadsOperandsOnly (wordEffect w) := by
  unfold wordEffect
  cases decode w with
  | ok i => exact readsOperandsOnly_effect Config.params i
  | error r => exact readsOperandsOnly_raise .il

/-- The next state when a host input is served (R80, R83). -/
def inputEffect : HostInput → State → State
  | .command w, s => wordEffect w s
  | .reset, s => applyReset s
  | .commandCutByReset w, s => cutByReset Config.params s (wordEffect w s)

theorem serve_eq (input : HostInput) (s : State) : serve input s = .next (inputEffect input s) := by
  cases input with
  | command w => exact acceptWord_eq w s
  | reset => rfl
  | commandCutByReset w => simp [serve, acceptWordCut, acceptWord_eq, inputEffect]

theorem readsOperandsOnly_inputEffect (input : HostInput) : ReadsOperandsOnly (inputEffect input) := by
  cases input with
  | command w => exact readsOperandsOnly_wordEffect w
  | reset => exact readsOperandsOnly_applyReset
  | commandCutByReset w => exact readsOperandsOnly_cutByReset _ (readsOperandsOnly_wordEffect w)

/-- A step whose host input is there takes it off the host's list and serves it (R83). -/
theorem step_of_host_cons {s : State} {input : HostInput} {rest : List HostInput} (h : s.host = input :: rest) :
    step s = .next (inputEffect input (s.setHost rest)) := by
  simp only [step, serveNext, h, serve_eq]

/-- Settles O50: both blocks idle, or both serve the same input, whose effect reads operand registers alone. -/
theorem stepIgnoresEarlierRecords : Obligations.StepIgnoresEarlierRecords := by
  intro s u h hf hst hhost
  cases hs : s.host with
  | nil =>
    have hu : u.host = [] := hhost.symm.trans hs
    exact ⟨s, u, step_of_host_nil s hs, step_of_host_nil u hu, h, hf, hst, hhost, by simp [newRecords]⟩
  | cons input rest =>
    have hu : u.host = input :: rest := hhost.symm.trans hs
    have hin := readsOperandsOnly_inputEffect input
    have h' : AgreeOnOperands (s.setHost rest) (u.setHost rest) := h
    exact ⟨_, _, step_of_host_cons hs, step_of_host_cons hu, hin.agree h', hin.f h' hf, hin.status h' hst,
      (hin.host (s.setHost rest)).trans (hin.host (u.setHost rest)).symm, hin.newRecords_eq h'⟩

/-- Settles O37: the block idles, or serves the first input, and serving leaves the host's other inputs. -/
theorem everyStepCompletes : Obligations.EveryStepCompletes := by
  intro s
  cases hs : s.host with
  | nil => exact ⟨s, step_of_host_nil s hs, hs⟩
  | cons input rest => exact ⟨_, step_of_host_cons hs, (readsOperandsOnly_inputEffect input).host _⟩

/-- The host reads the same from states that agree in the registers and `STATUS` (R14). -/
theorem hostRead_congr {s u : State} (h : AgreeOnOperands s u) (hf : s.f = u.f) (hst : s.status = u.status)
    (r : HostReg) : hostRead r s = hostRead r u := by
  obtain ⟨hx, hn, hs, hy, ha, hd, he, hi, -⟩ := h
  cases r <;> simp_all [hostRead]

/-- Settles O47: a reset puts the two states in agreement, and every word accepted keeps them so and appends the same records. -/
theorem runObservationForgetsThePast : Obligations.RunObservationForgetsThePast := by
  intro words s u hdraws
  have hwords := ReadsOperandsOnly.foldl readsOperandsOnly_wordEffect words
  have h : AgreeOnOperands (applyReset s) (applyReset u) := by simp [AgreeOnOperands, applyReset_eq, hdraws]
  refine ⟨_, _, acceptAll_eq_foldl words _, acceptAll_eq_foldl words _, Prod.ext ?_ (hwords.newRecords_eq h)⟩
  exact List.map_congr_left fun r _ =>
    congrArg (Prod.mk r) (hostRead_congr (hwords.agree h) (hwords.f h rfl) (hwords.status h rfl) r)

/-! ## Commands and the host's inputs -/

/-- States that agree in every field are equal. -/
theorem state_ext {s u : State} (h : AgreeOnOperands s u) (hf : s.f = u.f) (hst : s.status = u.status)
    (hout : s.out = u.out) (hhost : s.host = u.host) : s = u := by
  obtain ⟨hx, hn, hs, hy, ha, hd, he, hi, hdraws⟩ := h
  cases s
  cases u
  simp_all

/-- A function that reads operand registers alone does not see the host's inputs. -/
theorem ReadsOperandsOnly.setHost {g : State → State} (hg : ReadsOperandsOnly g) (s : State) (inputs : List HostInput) :
    g (s.setHost inputs) = (g s).setHost inputs := by
  have h : AgreeOnOperands (s.setHost inputs) s := agreeOnOperands_refl s
  obtain ⟨records, hout, hout'⟩ := hg.out h
  exact state_ext (hg.agree h) (hg.f h rfl) (hg.status h rfl) (hout.trans hout'.symm) (hg.host _)

/-- The first of the words issued to a block with no input pending is accepted, and the others stay issued (R83). -/
theorem step_issue_cons (w : Word) (words : List Word) {s : State} (h : s.host = []) :
    step (s.issue (w :: words)) = .next ((wordEffect w s).issue words) := by
  have hhost : (wordEffect w s).host = [] := ((readsOperandsOnly_wordEffect w).host s).trans h
  have hissued : (s.issue (w :: words)).host = .command w :: words.map .command := by simp [State.issue, h]
  have hleft : (wordEffect w s).issue words = (wordEffect w s).setHost (words.map .command) := by
    rw [State.issue, hhost, List.nil_append]
  rw [step_of_host_cons hissued, hleft]
  exact congrArg _ ((readsOperandsOnly_wordEffect w).setHost s _)

/-- As many steps as there are words accept them in turn. -/
theorem run_issue (words : List Word) {s : State} (h : s.host = []) :
    Host.Core.run Sys2Proof.core words.length (s.issue words) = acceptAll words s := by
  induction words generalizing s with
  | nil =>
    rw [State.issue, List.map_nil, List.append_nil]
    rfl
  | cons w words ih =>
    have hhost : (wordEffect w s).host = [] := ((readsOperandsOnly_wordEffect w).host s).trans h
    have hstep : Sys2Proof.core.step (s.issue (w :: words)) = .next ((wordEffect w s).issue words) :=
      step_issue_cons w words h
    simp only [List.length_cons, Host.Core.run, hstep, acceptAll, acceptWord_eq]
    exact ih hhost

/-- Settles O36: the run accepts the words in turn, and no word accepted touches the host's inputs. -/
theorem wordsRunInIssueOrder : Obligations.WordsRunInIssueOrder := by
  intro words s h
  have hwords := ReadsOperandsOnly.foldl readsOperandsOnly_wordEffect words
  exact ⟨_, acceptAll_eq_foldl words s, (hwords.host s).trans h, (run_issue words h).trans (acceptAll_eq_foldl words s)⟩

end Sys2Proof.Machine
end

section
/-!
PROOF. Range reduction and the Newton iteration in exact integers (00_scope.md R3, 41_range_reduce.md R51, 43_newton.md R54): the
values that `k` reductions bring below a bound, and what an iteration that does not underflow leaves.
-/

namespace Sys2Proof.Machine

/-! ## Range reduction -/

/-- The values that one rounded division brings to at most `m`. -/
theorem roundedQuarter_le_iff (w m : Nat) : roundedQuarter w ≤ m ↔ w ≤ 4 * m + 1 := by
  unfold roundedQuarter
  omega

/-- The values that `k` rounded divisions bring to at most `m`. -/
theorem iterate_roundedQuarter_le_iff (k w m : Nat) : roundedQuarter^[k] w ≤ m ↔ 3 * w + 1 ≤ 4 ^ k * (3 * m + 1) := by
  induction k generalizing m with
  | zero =>
    rw [Function.iterate_zero_apply, Nat.pow_zero]
    omega
  | succ k ih =>
    rw [Function.iterate_succ_apply', roundedQuarter_le_iff, ih, Nat.pow_succ, Nat.mul_assoc,
      show 3 * (4 * m + 1) + 1 = 4 * (3 * m + 1) by ring]

/-- The bounds of `N` and `S` (R12, R51 (c)). -/
theorem rangeReduce_bounds (x : Half) :
    1 ≤ (rangeReduce x).1.toNat ∧ (rangeReduce x).1.toNat ≤ 15 ∧ (rangeReduce x).2.toNat ≤ 7 := by
  obtain ⟨k, hk, -, hstop, hn, hs⟩ := rangeReduce_spec x
  omega

/-- `S` as a function of `X` (R51 (d)). -/
theorem rangeReduce_scale (x : Half) : (rangeReduce x).2.toNat =
    if x.toNat ≤ 15 then 0 else if x.toNat ≤ 61 then 1 else if x.toNat ≤ 245 then 2 else if x.toNat ≤ 981 then 3
    else if x.toNat ≤ 3925 then 4 else if x.toNat ≤ 15701 then 5 else if x.toNat ≤ 62805 then 6 else 7 := by
  obtain ⟨k, hk, hbefore, hstop, -, hs⟩ := rangeReduce_spec x
  have hlast : k = 0 ∨ 15 < roundedQuarter^[k - 1] x.toNat :=
    k.eq_zero_or_pos.imp_right fun hpos => hbefore (k - 1) (by omega)
  rw [← Nat.not_le, iterate_roundedQuarter_le_iff] at hlast
  rw [iterate_roundedQuarter_le_iff] at hstop
  rw [hs]
  interval_cases k <;> split_ifs <;> omega

/-- `N` and `S` for the powers of two (R51 (e)). -/
theorem rangeReduce_two_pow : ∀ i : Nat, i ≤ 15 →
    ((rangeReduce (BitVec.ofNat 16 (2 ^ i))).1.toNat, (rangeReduce (BitVec.ofNat 16 (2 ^ i))).2.toNat) =
      if i ≤ 3 then (2 ^ i, 0) else if i % 2 = 0 then (4, (i - 2) / 2) else (8, (i - 3) / 2) := by
  decide

/-- Settles O14: `S` is the least number of rounded divisions by 4 that gives at most 15, and each count of them has its exact
range of inputs. -/
theorem rangeReductionProperties : Obligations.RangeReductionProperties :=
  ⟨rangeReduce_bounds, rangeReduce_scale, rangeReduce_two_pow⟩

/-! ## Temporaries (R3) -/

theorem mul_self_le (y : Half) : y.toNat * y.toNat ≤ 4294836225 := by
  have hy : y.toNat ≤ 65535 := Nat.le_of_lt_succ y.isLt
  exact Nat.mul_le_mul hy hy

theorem newtonProduct_le (x y : Half) : (newtonProduct x y).toNat ≤ 4294770690 := by
  have hx : x.toNat ≤ 65535 := Nat.le_of_lt_succ x.isLt
  rw [toNat_newtonProduct, ← toNat_newtonSquare]
  exact Nat.mul_le_mul hx (newtonSquare_le y)

theorem mul_10000_le (v : Half) : v.toNat * 10000 ≤ 655350000 :=
  Nat.mul_le_mul_right 10000 (Nat.le_of_lt_succ v.isLt)

/-- Settles O18: each function's exact value is a law of the datapath; the bounds are those of 16-bit operands. -/
theorem temporariesNeverWrap : Obligations.TemporariesNeverWrap := by
  refine ⟨fun w hw => ⟨toNat_reduceStep w hw, by omega⟩, fun x k => ?_,
    fun y => ⟨toNat_newtonSquare y, mul_self_le y, newtonSquare_le y⟩,
    fun x y => ⟨toNat_newtonProduct x y, newtonProduct_le x y⟩,
    fun x y h => ?_,
    fun d a => ⟨toNat_relativeError d a, mul_10000_le d⟩, fun v => ⟨toNat_frac4 v, mul_10000_le v⟩⟩
  · have hx := x.isLt
    exact (toNat_iterate_reduceStep k x.toWord (by rw [toNat_toWord]; omega)).2
  · have hdiff := toNat_newtonDifference x y h
    have hq : (196608 - x.toNat * (y.toNat * y.toNat / 65536)) / 4 ≤ 49152 := by omega
    have hy : y.toNat ≤ 65535 := Nat.le_of_lt_succ y.isLt
    refine ⟨_, _, rfl, hdiff, rfl, ?_, hq, Nat.mul_le_mul hq hy, toNat_newtonWide x y h⟩
    rw [BitVec.toNat_ushiftRight, hdiff, Nat.shiftRight_eq_div_pow]

/-! ## The iteration without underflow (R54) -/

/-- Step 4 never gives more than one and a half times `Y` (R54 (b)). -/
theorem newtonWide_le (x y : Half) (h : NewtonSafe x y) : (newtonWide x y).toNat ≤ 3 * y.toNat / 2 := by
  rw [toNat_newtonWide x y h]
  have hq : (196608 - x.toNat * (y.toNat * y.toNat / 65536)) / 4 ≤ 49152 := by omega
  have hqy := Nat.mul_le_mul_right y.toNat hq
  omega

/-- For an input other than 0 step 4 truncates no bit that is not 0 (R54 (a)). With `Y = 65536 - j`, the shifted square is at least
`65536 - 2 * j`, so four times the product that is shifted last is at most `2 ^ 33 - 2 * j * j`. -/
theorem newtonWide_le_of_ne_zero {x y : Half} (hx : x ≠ 0#16) (h : NewtonSafe x y) : (newtonWide x y).toNat ≤ 65535 := by
  have hy := y.isLt
  have hxpos : 1 ≤ x.toNat := Nat.pos_of_ne_zero fun h0 => hx (BitVec.eq_of_toNat_eq h0)
  rw [toNat_newtonWide x y h]
  generalize x.toNat = X at *
  obtain ⟨j, hj⟩ : ∃ j, y.toNat + j = 65536 := ⟨65536 - y.toNat, by omega⟩
  generalize y.toNat = Y at *
  have hsquare : 65536 ≤ Y * Y / 65536 + 2 * j := by
    have hexpand : Y * Y + 2 * j * 65536 = 65536 * 65536 + j * j := by nlinarith
    omega
  have hproduct : Y * Y / 65536 ≤ X * (Y * Y / 65536) := Nat.le_mul_of_pos_left _ hxpos
  generalize X * (Y * Y / 65536) = p at *
  have hquarter : 4 * ((196608 - p) / 4) ≤ 131072 + 2 * j := by omega
  generalize (196608 - p) / 4 = q at *
  have hlast : 4 * (q * Y) + 2 * (j * j) ≤ 4 * 2147483648 := by nlinarith
  have hjj : 0 < j * j := Nat.mul_pos (by omega) (by omega)
  omega

/-- On input 0 step 4 gives one and a half times `Y`. -/
theorem toNat_newtonWide_zero (y : Half) : (newtonWide 0#16 y).toNat = 49152 * y.toNat / 32768 := by
  rw [toNat_newtonWide _ _ (by simp [NewtonSafe])]
  simp

/-- Settles O19: for an input other than 0 the result fits; for input 0 it is `3 * Y / 2`, which fits up to `Y = 43690`. -/
theorem newtonTruncationOnlyForInputZero : Obligations.NewtonTruncationOnlyForInputZero := by
  refine fun x y h => ⟨?_, newtonWide_le x y h⟩
  by_cases hx : x = 0#16
  · have hwide := toNat_newtonWide_zero y
    rw [hx, hwide]
    simp only [true_and]
    omega
  · have hfits := newtonWide_le_of_ne_zero hx h
    simp only [hx, false_and, iff_false]
    omega

/-! ## Repeated iterations -/

/-- For an input other than 0 a safe iteration writes its exact result. -/
theorem toNat_newtonResult {x y : Half} (hx : x ≠ 0#16) (h : NewtonSafe x y) :
    (newtonResult x y).toNat = (196608 - x.toNat * (y.toNat * y.toNat / 65536)) / 4 * y.toNat / 32768 := by
  have hfits := newtonWide_le_of_ne_zero hx h
  rw [newtonResult, BitVec.toNat_setWidth, ← toNat_newtonWide x y h, Nat.mod_eq_of_lt (by omega)]

/-- The cubic behind `newtonSafe_newtonResult`, with `u` for `X * y2`: for `t = 196608 - u` and `c = 65536` the right side is
the left side and `t * (t - 2 * c) ^ 2 + 4 * c ^ 2 * (3 * c - t)`. -/
theorem newton_cubic_le {u : Nat} (hu : u ≤ 196608) : (196608 - u) ^ 2 * (u + 65536) ≤ 12 * 65536 ^ 3 := by
  obtain ⟨t, ht⟩ : ∃ t, t + u = 196608 := ⟨196608 - u, by omega⟩
  rw [← ht, Nat.add_sub_cancel]
  zify at ht ⊢
  have hut : (u : ℤ) = 196608 - t := by linarith
  have hrest : 0 ≤ (t : ℤ) * (t - 2 * 65536) ^ 2 := by positivity
  rw [hut]
  linarith

/-- An iteration that does not underflow is followed by one that does not, whatever the estimate was: its result `v` has
`2 ^ 17 * v ≤ t * Y` with `t = 196608 - X * y2`, and `Y * Y` is at most `65536 * (y2 + 1)`. -/
theorem newtonSafe_newtonResult {x y : Half} (hx : x ≠ 0#16) (h : NewtonSafe x y) : NewtonSafe x (newtonResult x y) := by
  have hx16 := x.isLt
  have hcubic := newton_cubic_le h
  unfold NewtonSafe
  rw [toNat_newtonResult hx h]
  generalize x.toNat = X at *
  generalize y.toNat = Y at *
  generalize hm : Y * Y / 65536 = m at *
  have hY : Y * Y ≤ 65536 * (m + 1) := by omega
  generalize ht : 196608 - X * m = t at *
  generalize hv : t / 4 * Y / 32768 = v
  have hresult : 131072 * v ≤ t * Y := by
    have hq : 4 * (t / 4) * Y ≤ t * Y := Nat.mul_le_mul_right Y (Nat.mul_div_le t 4)
    rw [Nat.mul_assoc] at hq
    omega
  have hsquare : X * (v * v) ≤ 3 * 65536 ^ 2 := by
    refine Nat.le_of_mul_le_mul_left ?_ (show 0 < 131072 ^ 2 by decide)
    calc 131072 ^ 2 * (X * (v * v)) = X * ((131072 * v) * (131072 * v)) := by ring
      _ ≤ X * ((t * Y) * (t * Y)) := Nat.mul_le_mul_left X (Nat.mul_le_mul hresult hresult)
      _ = X * t ^ 2 * (Y * Y) := by ring
      _ ≤ X * t ^ 2 * (65536 * (m + 1)) := Nat.mul_le_mul_left _ hY
      _ = 65536 * (t ^ 2 * (X * m + X)) := by ring
      _ ≤ 65536 * (t ^ 2 * (X * m + 65536)) := by gcongr
      _ ≤ 65536 * (12 * 65536 ^ 3) := Nat.mul_le_mul_left _ hcubic
      _ = 131072 ^ 2 * (3 * 65536 ^ 2) := by norm_num
  calc X * (v * v / 65536) ≤ X * (v * v) / 65536 := Nat.mul_div_le_mul_div_assoc X (v * v) 65536
    _ ≤ 3 * 65536 ^ 2 / 65536 := Nat.div_le_div_right hsquare
    _ = 196608 := by norm_num

/-! ## The first iteration with the reference seeds -/

/-- The reference seed at `n` is about `65536 / sqrt n`; more than enough of it for what follows (R25). -/
theorem seedRef_square_le (n : Nibble) :
    n.toNat * ((romRead Config.seedRef n).toNat * (romRead Config.seedRef n).toNat) ≤ 2 * 65536 ^ 2 := by
  revert n
  decide

/-- The input is not much more than `N` scaled back: `3 * X + 1 ≤ 4 ^ S * (3 * N + 1)` (R50). -/
theorem rangeReduce_scaled_ge (x : Half) :
    3 * x.toNat + 1 ≤ 4 ^ (rangeReduce x).2.toNat * (3 * (rangeReduce x).1.toNat + 1) := by
  obtain ⟨k, -, -, -, hn, hs⟩ := rangeReduce_spec x
  rw [hs]
  exact (iterate_roundedQuarter_le_iff _ _ _).1 (by omega)

/-- With the reference seeds the first iteration does not underflow: `3 * X ≤ 4 * N * 4 ^ S`, and `Y * 2 ^ S` is at most the seed. -/
theorem newtonSafe_seedRef (x : Half) :
    NewtonSafe x (romRead Config.seedRef (rangeReduce x).1 >>> (rangeReduce x).2.toNat) := by
  have hseed := seedRef_square_le (rangeReduce x).1
  have hscale := rangeReduce_scaled_ge x
  have hn := (rangeReduce_bounds x).1
  unfold NewtonSafe
  rw [BitVec.toNat_ushiftRight, Nat.shiftRight_eq_div_pow]
  generalize (rangeReduce x).1.toNat = n at *
  generalize (romRead Config.seedRef (rangeReduce x).1).toNat = r at *
  generalize (rangeReduce x).2.toNat = k at *
  generalize x.toNat = X at *
  have hy : r / 2 ^ k * 2 ^ k ≤ r := Nat.div_mul_le_self r _
  generalize r / 2 ^ k = Y at *
  have hX : 3 * X ≤ 4 * n * 4 ^ k := by nlinarith [Nat.one_le_pow k 4 (by decide)]
  have hsquare : 3 * (X * (Y * Y)) ≤ 8 * 65536 ^ 2 := calc
    3 * (X * (Y * Y)) = 3 * X * (Y * Y) := (Nat.mul_assoc 3 X _).symm
    _ ≤ 4 * n * 4 ^ k * (Y * Y) := Nat.mul_le_mul_right _ hX
    _ = 4 * n * ((Y * 2 ^ k) * (Y * 2 ^ k)) := by rw [show 4 ^ k = 2 ^ k * 2 ^ k by rw [← Nat.mul_pow]]; ring
    _ ≤ 4 * n * (r * r) := Nat.mul_le_mul_left _ (Nat.mul_le_mul hy hy)
    _ ≤ 8 * 65536 ^ 2 := by linarith
  calc X * (Y * Y / 65536) ≤ X * (Y * Y) / 65536 := Nat.mul_div_le_mul_div_assoc X (Y * Y) 65536
    _ ≤ 196608 := by omega

/-! ## The estimate with the reference seeds (R55) -/

/-- Where the first of three iterations does not underflow, none does, and they write `Y` alone. -/
theorem newton_thrice_of_safe (p : Params) (s : State) (hx : s.x ≠ 0#16) (h : NewtonSafe s.x s.y) :
    ∃ y, newton p (newton p (newton p s)) = s.setY y := by
  have hsecond := newtonSafe_newtonResult hx h
  have hthird := newtonSafe_newtonResult hx hsecond
  have hstep (y : Half) (hy : NewtonSafe s.x y) : newton p (s.setY y) = s.setY (newtonResult s.x y) :=
    newton_of_safe p (s.setY y) hy
  have hfirst : newton p s = s.setY (newtonResult s.x s.y) := newton_of_safe p s h
  exact ⟨_, by rw [hfirst, hstep _ hsecond, hstep _ hthird]⟩

/-- Settles O22: the first iteration is safe by the reference seeds, the next two because the one before was. -/
theorem referenceSeedsNeverUnderflow : Obligations.ReferenceSeedsNeverUnderflow := by
  intro p s hp hx
  have hsafe := newtonSafe_seedRef s.x
  rw [← hp] at hsafe
  obtain ⟨y, h⟩ := newton_thrice_of_safe p (lookUpSeed p (reduce (s.writeZs false))) hx hsafe
  have hest : estimate p s = (lookUpSeed p (reduce (s.writeZs false))).setY y := by
    rw [estimate, if_neg hx, refine, h]
  rw [hest]
  exact ⟨flag_writeZs s false .uf, rfl⟩

end Sys2Proof.Machine
end

section
/-!
PROOF. The flags of `STATUS` (10_state.md R18, 60_exceptions.md R63 to R68): what each operation writes there, and that only a
reset clears a sticky one.
-/

namespace Sys2Proof.Machine

section
variable (p : Params) (s : State)

/-! ## One operation -/

/-- `NR` writes no flag but `UF`, which it raises exactly where the subtraction would underflow (R65). -/
theorem flag_newton (b : Flag) :
    (newton p s).flag b = (s.flag b || decide (b = .uf ∧ ¬ NewtonSafe s.x s.y)) := by
  by_cases h : NewtonSafe s.x s.y
  · rw [newton_of_safe p s h]
    simp [h, State.flag]
  · have hnewton : (newton p s).flag b = (s.raise .uf).flag b := by rw [newton_of_underflow p s h]; rfl
    simp [hnewton, h, eq_comm]

/-- `ERR` writes no flag but `DZ`, which it raises exactly against a zero reference (R66). -/
theorem flag_compare (b : Flag) : (compare s).flag b = (s.flag b || decide (b = .dz ∧ s.a = 0#16)) := by
  by_cases h : s.a = 0#16
  · have hcompare : (compare s).flag b = (s.raise .dz).flag b := by rw [compare_of_zero s h]; rfl
    simp [hcompare, h, eq_comm]
  · rw [compare_of_ne_zero s h]
    simp [h, State.flag]

/-- The non-zero path of the estimate clears no flag. -/
theorem flag_refine_of_flag {b : Flag} (h : s.flag b = true) : (refine p s).flag b = true := by
  have hseeded : (lookUpSeed p (reduce s)).flag b = true := h
  simp [refine, flag_newton, hseeded]

/-- `EST` writes in `ZS` whether it took the sentinel path (R68). -/
theorem flag_estimate_zs : (estimate p s).flag .zs = decide (s.x = 0#16) := by
  by_cases h : s.x = 0#16
  · simp [estimate, h]
  · simp [estimate, h, flag_refine_of_ne_uf]

/-- `EST` writes no flag but `UF` and `ZS`. -/
theorem flag_estimate_of_ne {b : Flag} (huf : b ≠ .uf) (hzs : b ≠ .zs) : (estimate p s).flag b = s.flag b := by
  by_cases h : s.x = 0#16
  · simp only [estimate, if_pos h, flag_writeZs, if_neg hzs]
    rfl
  · simp only [estimate, if_neg h, flag_refine_of_ne_uf p _ huf, flag_writeZs, if_neg hzs]

/-- `EST` clears no flag but `ZS`. -/
theorem flag_estimate_of_flag {b : Flag} (hzs : b ≠ .zs) (h : s.flag b = true) : (estimate p s).flag b = true := by
  by_cases hx : s.x = 0#16
  · simp only [estimate, if_pos hx, flag_writeZs, if_neg hzs]
    exact h
  · rw [estimate, if_neg hx]
    exact flag_refine_of_flag p _ (by rw [flag_writeZs, if_neg hzs, h])

/-! ## The sweep -/

variable (idx : Nibble)

/-- The flags after a sweep iteration are those after its `EST` and its `ERR`. -/
theorem flag_sweepIteration (b : Flag) :
    (sweepIteration p idx s).flag b =
      ((estimate p (loadExponent idx s)).flag b ||
        decide (b = .dz ∧ (loadGolden p (estimate p (loadExponent idx s))).a = 0#16)) :=
  flag_compare (loadGolden p (estimate p (loadExponent idx s))) b

/-- A sweep iteration clears `ZS`, since its input is not 0 (R61). -/
theorem flag_sweepIteration_zs : (sweepIteration p idx s).flag .zs = false := by
  have hx : (loadExponent idx s).x ≠ 0#16 := powerOfTwo_ne_zero idx
  simp [flag_sweepIteration, flag_estimate_zs, hx]

/-- A sweep iteration does not write `IL`. -/
theorem flag_sweepIteration_il : (sweepIteration p idx s).flag .il = s.flag .il := by
  rw [flag_sweepIteration, flag_estimate_of_ne p _ (by decide) (by decide)]
  simp [State.flag, loadExponent_eq]

/-- A sweep iteration clears no flag but `ZS`. -/
theorem flag_sweepIteration_of_flag {b : Flag} (hzs : b ≠ .zs) (h : s.flag b = true) :
    (sweepIteration p idx s).flag b = true := by
  have hest := flag_estimate_of_flag p (loadExponent idx s) hzs h
  rw [flag_sweepIteration, hest, Bool.true_or]

end

section
variable (p : Params) (idxs : List Nibble)

/-- Sweep iterations in turn do not write `IL`. -/
theorem flag_foldl_sweepIteration_il (s : State) :
    (idxs.foldl (fun t idx => sweepIteration p idx t) s).flag .il = s.flag .il := by
  induction idxs generalizing s with
  | nil => rfl
  | cons idx idxs ih => rw [List.foldl_cons, ih, flag_sweepIteration_il]

/-- Sweep iterations in turn clear no flag but `ZS`. -/
theorem flag_foldl_sweepIteration_of_flag {b : Flag} (hzs : b ≠ .zs) (s : State) (h : s.flag b = true) :
    (idxs.foldl (fun t idx => sweepIteration p idx t) s).flag b = true := by
  induction idxs generalizing s with
  | nil => exact h
  | cons idx idxs ih => exact ih _ (flag_sweepIteration_of_flag p s idx hzs h)

end

/-- The exponents before the last one. -/
def sweepExponentsInit : List Nibble := (List.range 15).map (BitVec.ofNat 4)

/-- A sweep ends with the iteration of exponent 15. -/
theorem sweep_eq_last (p : Params) (s : State) :
    sweep p s = sweepIteration p 15#4 (sweepExponentsInit.foldl (fun t idx => sweepIteration p idx t) s) := rfl

/-- `SWP` leaves `ZS` cleared (R61). -/
theorem flag_sweep_zs (p : Params) (s : State) : (sweep p s).flag .zs = false := by
  rw [sweep_eq_last]
  exact flag_sweepIteration_zs p _ _

/-! ## Any command -/

section
variable (p : Params) (i : Instr) (s : State)

/-- No command writes `IL` (R67). -/
theorem flag_effect_il : (effect p i s).flag .il = s.flag .il := by
  cases i with
  | nr => simp [effect, flag_newton]
  | est => exact flag_estimate_of_ne p s (by decide) (by decide)
  | err => simp [effect, flag_compare]
  | swp => exact flag_foldl_sweepIteration_il p sweepExponents s
  | _ => rfl

/-- No command clears a sticky flag (R18). -/
theorem flag_effect_of_sticky {b : Flag} (hb : flagSticky b = true) (h : s.flag b = true) :
    (effect p i s).flag b = true := by
  have hzs : b ≠ .zs := by
    rintro rfl
    exact absurd hb (by decide)
  cases i with
  | nr => simp [effect, flag_newton, h]
  | est => exact flag_estimate_of_flag p s hzs h
  | err => simp [effect, flag_compare, h]
  | swp => exact flag_foldl_sweepIteration_of_flag p sweepExponents hzs s h
  | _ => exact h

end

/-- A command that completes has its effect. -/
theorem effect_of_exec_eq_next {i : Instr} {s t : State} (h : exec i s = .next t) : effect Config.params i s = t := by
  rwa [exec_eq_effect, Host.Outcome.next.injEq] at h

/-- Settles O41: the flags of each command's effect, read off those of the operations it is made of. -/
theorem flagWriters : Obligations.FlagWriters := by
  intro i s t h
  obtain rfl := effect_of_exec_eq_next h
  refine ⟨flag_effect_il _ i s, ?_, ?_, ?_, ?_, ?_, ?_, ?_⟩
  · intro hi
    cases i with
    | nr | est | swp => simp at hi
    | err => simp [effect, flag_compare]
    | _ => rfl
  · intro hi
    cases i with
    | err | swp => simp at hi
    | nr => simp [effect, flag_newton]
    | est => exact flag_estimate_of_ne _ s (by decide) (by decide)
    | _ => rfl
  · intro hi
    cases i with
    | est | swp => simp at hi
    | nr => simp [effect, flag_newton]
    | err => simp [effect, flag_compare]
    | _ => rfl
  · rintro rfl
    simp [effect, flag_newton]
  · rintro rfl
    simp [effect, flag_compare]
  · rintro rfl
    simp [effect, flag_estimate_zs]
  · rintro rfl
    exact flag_sweep_zs _ s

/-! ## Steps and resets -/

/-- Accepting a word clears no sticky flag, whether it runs a command or raises `IL`. -/
theorem flag_wordEffect_of_sticky (w : Word) {s : State} {b : Flag} (hb : flagSticky b = true) (h : s.flag b = true) :
    (wordEffect w s).flag b = true := by
  unfold wordEffect
  cases decode w with
  | ok i => exact flag_effect_of_sticky _ i s hb h
  | error r => simp [h]

/-- Settles O40: a step that is not cut or made by a reset idles or accepts a word. -/
theorem stickyFlagsStay : Obligations.StickyFlagsStay := by
  intro s t b hb h hstep
  cases hs : s.host with
  | nil =>
    rw [step_of_host_nil s hs, Host.Outcome.next.injEq] at hstep
    exact .inr (.inr (hstep ▸ h))
  | cons input rest =>
    rw [step_of_host_cons hs, Host.Outcome.next.injEq] at hstep
    cases input with
    | command w => exact .inr (.inr (hstep ▸ flag_wordEffect_of_sticky w hb h))
    | reset => exact .inl ⟨rest, rfl⟩
    | commandCutByReset w => exact .inr (.inl ⟨w, rest, rfl⟩)

/-- Of the records a cut command was going to append it leaves the first ones (R80). -/
theorem cutByReset_out (p : Params) {s t : State} {records : List Record} (h : t.out = s.out ++ records) :
    (cutByReset p s t).out = s.out ++ records.take (p.cutRecords t.draws) := by
  simp only [cutByReset, State.setDraws_out, State.setOut_out, h, List.drop_left]

/-- Settles O39: a cut command leaves the reset state, and of the records its effect appends the first ones. -/
theorem resetDuringCommand : Obligations.ResetDuringCommand := by
  refine ⟨resetState.2.2, fun s w rest hs => ?_, fun i s t b hb h hflag => ?_⟩
  · obtain ⟨records, hout⟩ := (readsOperandsOnly_wordEffect w).out_append (s.setHost rest)
    exact ⟨_, wordEffect w (s.setHost rest), records, _, step_of_host_cons hs,
      applyReset_hasResetRegisters (wordEffect w (s.setHost rest)), acceptWord_eq w _, hout, cutByReset_out Config.params hout⟩
  · exact effect_of_exec_eq_next h ▸ flag_effect_of_sticky _ i s hb hflag

end Sys2Proof.Machine
end

section
/-!
PROOF. Which registers a command writes (10_state.md R11), the bounds of `N` and `S` (R12), and the growth of `OUT` (R20).
-/

namespace Sys2Proof.Machine

/-! ## Registers -/

/-- A sweep does not write `F`. -/
theorem foldl_sweepIteration_f (p : Params) (idxs : List Nibble) (s : State) :
    (idxs.foldl (fun t idx => sweepIteration p idx t) s).f = s.f := by
  induction idxs generalizing s with
  | nil => rfl
  | cons idx idxs ih =>
    obtain ⟨y, st, k, hstep, -⟩ := sweepIteration_frame p s idx
    rw [List.foldl_cons, ih, hstep]

theorem sweep_f (p : Params) (s : State) : (sweep p s).f = s.f := foldl_sweepIteration_f p sweepExponents s

/-- Settles O42: for each command, the record update that its operation is. -/
theorem registerWriters : Obligations.RegisterWriters := by
  intro i s t h
  obtain rfl := effect_of_exec_eq_next h
  cases i with
  | nr =>
    obtain ⟨y, st, k, hnewton, -⟩ := newton_frame Config.params s
    simp [effect, hnewton]
  | est =>
    obtain ⟨n, sc, y, st, k, hest, -⟩ := estimate_frame Config.params s
    simp [effect, hest]
  | err =>
    obtain ⟨e, st, hcompare, -⟩ := compare_frame s
    simp [effect, hcompare]
  | swp => simp [effect, sweep_f, (readsOperandsOnly_sweep Config.params).host]
  | _ => simp [effect, loadExponent_eq, loadGolden_eq, reduce_eq, lookUpSeed_eq, emitRecord_eq]

/-! ## The bounds of `N` and `S` -/

/-- `N` and `S` are those of some reduction (R50). -/
def Reduced (s : State) : Prop := ∃ x, (s.n, s.s) = rangeReduce x

/-- The result of a reduction is within R12's bounds. -/
theorem Reduced.inv {s : State} (h : Reduced s) : s.Inv := by
  obtain ⟨x, hx⟩ := h
  have hbounds := rangeReduce_bounds x
  rwa [← hx] at hbounds

theorem reduced_sweep (p : Params) (s : State) : Reduced (sweep p s) := by
  obtain ⟨y, st, k, hstep, -⟩ :=
    sweepIteration_frame p (sweepExponentsInit.foldl (fun t idx => sweepIteration p idx t) s) 15#4
  rw [sweep_eq_last, hstep]
  exact ⟨_, rfl⟩

/-- A command leaves `N` and `S`, or writes the result of a reduction there. -/
theorem effect_reduced (i : Instr) (s : State) :
    ((effect Config.params i s).n = s.n ∧ (effect Config.params i s).s = s.s) ∨ Reduced (effect Config.params i s) := by
  obtain ⟨-, hkept, -⟩ := registerWriters i s _ (exec_eq_effect s i)
  by_cases hi : i ∈ [.red, .est, .swp]
  · simp only [List.mem_cons, List.not_mem_nil, or_false] at hi
    obtain rfl | rfl | rfl := hi
    · exact .inr ⟨s.x, rfl⟩
    · obtain ⟨n, sc, y, st, k, hest, ⟨hx, -⟩ | ⟨-, -, rfl, rfl⟩⟩ := estimate_frame Config.params s
      · exact .inl (by simp [effect, estimate_of_zero _ s hx])
      · exact .inr ⟨s.x, by rw [effect, hest]⟩
    · exact .inr (reduced_sweep _ s)
  · exact .inl (hkept hi)

/-- Every command keeps R12's bounds. -/
theorem effect_inv (i : Instr) {s : State} (h : s.Inv) : (effect Config.params i s).Inv := by
  obtain ⟨hn, hs⟩ | hreduced := effect_reduced i s
  · rwa [State.Inv, hn, hs]
  · exact hreduced.inv

/-- Accepting a word, legal or not, keeps R12's bounds. -/
theorem wordEffect_inv (w : Word) {s : State} (h : s.Inv) : (wordEffect w s).Inv := by
  unfold wordEffect
  cases decode w with
  | ok i => exact effect_inv i h
  | error r => exact h

/-- Settles O43: by evaluation of the reset values. -/
theorem invariantAtReset : Obligations.InvariantAtReset := by
  unfold Obligations.InvariantAtReset
  decide

/-- Settles O44: a step idles, accepts a word, or leaves the reset values of `N` and `S`. -/
theorem stepKeepsInvariant : Obligations.StepKeepsInvariant := by
  intro s t h hstep
  cases hs : s.host with
  | nil =>
    rw [step_of_host_nil s hs, Host.Outcome.next.injEq] at hstep
    exact hstep ▸ h
  | cons input rest =>
    rw [step_of_host_cons hs, Host.Outcome.next.injEq] at hstep
    cases input with
    | command w => exact hstep ▸ wordEffect_inv w h
    | reset => exact hstep ▸ invariantAtReset
    | commandCutByReset w => exact hstep ▸ invariantAtReset

/-! ## `OUT` -/

/-- A sweep appends sixteen records. -/
theorem sweep_out (p : Params) (s : State) : ∃ records, (sweep p s).out = s.out ++ records ∧ records.length = 16 := by
  obtain ⟨records, hout, harg⟩ := foldl_sweepIteration_out p sweepExponents s
  refine ⟨records, hout, ?_⟩
  rw [← List.length_map Record.arg, harg]
  rfl

/-- A command appends one record (`EMIT`), sixteen (`SWP`) or none. -/
theorem effect_out (i : Instr) (s : State) : ∃ records, (effect Config.params i s).out = s.out ++ records ∧
    records.length = if i = .emit then 1 else if i = .swp then 16 else 0 := by
  obtain ⟨-, -, -, -, -, -, -, hkept, -⟩ := registerWriters i s _ (exec_eq_effect s i)
  cases i with
  | emit => exact ⟨[snapshot s], rfl, rfl⟩
  | swp => exact sweep_out _ s
  | _ => exact ⟨[], (hkept (by simp)).trans (List.append_nil _).symm, rfl⟩

/-- Settles O45: a step idles or serves an input, which appends to `OUT`; the counts are those of each command's effect. -/
theorem outputOnlyGrows : Obligations.OutputOnlyGrows := by
  refine ⟨fun s t hstep => ?_, fun i s => ?_⟩
  · cases hs : s.host with
    | nil =>
      rw [step_of_host_nil s hs, Host.Outcome.next.injEq] at hstep
      exact ⟨[], by rw [← hstep, List.append_nil]⟩
    | cons input rest =>
      rw [step_of_host_cons hs, Host.Outcome.next.injEq] at hstep
      exact hstep ▸ (readsOperandsOnly_inputEffect input).out_append (s.setHost rest)
  · obtain ⟨records, hout, hlength⟩ := effect_out i s
    exact ⟨_, records, exec_eq_effect s i, hout, hlength⟩

end Sys2Proof.Machine
end

section
/-!
PROOF. The sweep (46_report.md R61): as its eighty commands, the state and the records it leaves, and what it reads of the ROMs.
-/

namespace Sys2Proof.Machine

/-! ## As eighty commands -/

/-- Settles O26: the expansion is counted, and `SWP` is its sixteen iterations. -/
theorem sweepIsEightyCommands : Obligations.SweepIsEightyCommands :=
  ⟨by decide, fun s => ⟨_, exec_eq_effect s .swp, (exec_swp_eq_execAll_iter s).symm.trans (exec_eq_effect s .swp)⟩⟩

/-- Accepting the words of commands is executing the commands (R42, R83). -/
theorem acceptAll_map_encode (is : List Instr) (s : State) : acceptAll (is.map encode) s = execAll is s := by
  have hword (i : Instr) (t : State) : wordEffect (encode i) t = effect Config.params i t := by
    simp only [wordEffect, decodeInvertsEncode i]
  simp only [acceptAll_eq_foldl, execAll_eq_foldl, List.foldl_map, hword]

/-- Settles O31: both runs accept their words in turn: the one word of `SWP`, and the eighty of the commands it stands for. -/
theorem sweepStepRefinesEightySteps : Obligations.SweepStepRefinesEightySteps := by
  intro s h
  obtain ⟨hlength, hsweep⟩ := sweepIsEightyCommands
  obtain ⟨t, hswp, heighty⟩ := hsweep s
  have hone : execAll [.swp] s = .next t := by simp only [execAll, hswp]
  have hrunOne := run_issue ([Instr.swp].map encode) h
  have hrunEighty := run_issue (sweepCommands.map encode) h
  rw [acceptAll_map_encode, hone, List.map_singleton, show encode .swp = 0xD0000000#32 from encode_of_format_z rfl] at hrunOne
  rw [acceptAll_map_encode, heighty, List.length_map, hlength] at hrunEighty
  exact ⟨t, hrunOne, hrunEighty⟩

/-! ## The state after it, and its records -/

/-- A sweep iteration appends the snapshot of the registers it leaves (R59, R61). -/
theorem sweepIteration_out_snapshot (p : Params) (idx : Nibble) (s : State) :
    (sweepIteration p idx s).out = s.out ++ [snapshot (sweepIteration p idx s)] := by
  obtain ⟨y, st, k, hstep, -⟩ := sweepIteration_frame p s idx
  rw [hstep]
  rfl

/-- What a sweep iteration leaves in `A`, and that its record is consistent (R49, R57). -/
theorem sweepIteration_record (p : Params) (idx : Nibble) (s : State) :
    (snapshot (sweepIteration p idx s)).ans = romRead p.gold idx ∧
      RecordConsistent (snapshot (sweepIteration p idx s)) := by
  obtain ⟨y, st, k, hstep, -⟩ := sweepIteration_frame p s idx
  rw [hstep]
  exact ⟨rfl, rfl, rfl⟩

/-- A sweep iteration leaves in `Y` its estimate. -/
theorem sweepIteration_y (p : Params) (idx : Nibble) (s : State) :
    (sweepIteration p idx s).y = (estimate p (loadExponent idx s)).y := by
  obtain ⟨e, st, hcompare, -⟩ := compare_frame (loadGolden p (estimate p (loadExponent idx s)))
  rw [sweepIteration, hcompare]
  rfl

/-- The records of sweep iterations in turn: the golden words at their exponents, and consistent. -/
theorem foldl_sweepIteration_records (p : Params) (idxs : List Nibble) (s : State) : ∃ records,
    (idxs.foldl (fun t idx => sweepIteration p idx t) s).out = s.out ++ records ∧
      records.map Record.ans = idxs.map (romRead p.gold) ∧ ∀ r ∈ records, RecordConsistent r := by
  induction idxs generalizing s with
  | nil => exact ⟨[], by simp⟩
  | cons idx idxs ih =>
    obtain ⟨records, hout, hans, hconsistent⟩ := ih (sweepIteration p idx s)
    obtain ⟨hansFirst, hconsistentFirst⟩ := sweepIteration_record p idx s
    refine ⟨snapshot (sweepIteration p idx s) :: records, ?_, ?_, List.forall_mem_cons.2 ⟨hconsistentFirst, hconsistent⟩⟩
    · rw [List.foldl_cons, hout, sweepIteration_out_snapshot, List.append_assoc, List.singleton_append]
    · rw [List.map_cons, hans, hansFirst, List.map_cons]

/-- A ROM read at the exponents of the sweep, in order, is the ROM. -/
theorem map_romRead_sweepExponents (rom : Rom) : sweepExponents.map (romRead rom) = rom.toList := by
  refine List.ext_getElem (by simp [sweepExponents]) fun k hk hk' => ?_
  have hk16 : k < 16 := by simpa using hk'
  simp [sweepExponents, romRead, Vector.get_eq_getElem, Nat.mod_eq_of_lt hk16]

/-- What a sweep leaves in the registers that its last iteration loads or computes from constants. -/
theorem sweep_registers (p : Params) (s : State) :
    (sweep p s).i = 15#4 ∧ (sweep p s).x = 32768#16 ∧ (sweep p s).n = 8#4 ∧ (sweep p s).s = 6#4 ∧
      (sweep p s).a = romRead p.gold 15#4 := by
  obtain ⟨y, st, k, hstep, -⟩ :=
    sweepIteration_frame p (sweepExponentsInit.foldl (fun t idx => sweepIteration p idx t) s) 15#4
  have hx : powerOfTwo 15#4 = 32768#16 := by decide
  have hreduced : rangeReduce (powerOfTwo 15#4) = (8#4, 6#4) := by decide
  rw [sweep_eq_last, hstep]
  exact ⟨rfl, hx, congrArg Prod.fst hreduced, congrArg Prod.snd hreduced, rfl⟩

/-- The last record of a sweep is the snapshot of the registers it leaves. -/
theorem sweep_out_getLast? (p : Params) (s : State) : (sweep p s).out.getLast? = some (snapshot (sweep p s)) := by
  rw [sweep_eq_last, sweepIteration_out_snapshot, List.getLast?_concat]

/-- Settles O28: the registers are those of the last iteration, the flags and the records those of all sixteen. -/
theorem stateAfterSweep : Obligations.StateAfterSweep := by
  intro s
  obtain ⟨records, hout, hans, hconsistent⟩ := foldl_sweepIteration_records Config.params sweepExponents s
  obtain ⟨hi, hx, hn, hs, ha⟩ := sweep_registers Config.params s
  have hkept (b : Flag) (hb : b ≠ .zs) := flag_foldl_sweepIteration_of_flag Config.params sweepExponents hb s
  have hlast : records.getLast? = some (snapshot (sweep Config.params s)) := by
    have hne : records ≠ [] := by
      rintro rfl
      simp [sweepExponents] at hans
    rw [← List.getLast?_append_of_ne_nil s.out hne, ← hout]
    exact sweep_out_getLast? Config.params s
  exact ⟨_, records, exec_eq_effect s .swp, hout, hi, hx, hn, hs, ha.trans romRead_gold_fifteen, sweep_f _ s,
    flag_sweep_zs _ s, flag_effect_il _ .swp s, hkept .uf (by decide), hkept .dz (by decide),
    hans.trans (map_romRead_sweepExponents _), hconsistent, hlast⟩

/-! ## What it reads of the ROMs: seed words, the golden ROM, and the draws -/

section
variable {p q : Params} (s : State)

theorem lookUpSeed_congr (hseed : romRead p.seed s.n = romRead q.seed s.n) : lookUpSeed p s = lookUpSeed q s := by
  rw [lookUpSeed, lookUpSeed, hseed]

/-- `NR` takes from the parameters the draws alone. -/
theorem newton_congr (hdraw : p.nrUfValue = q.nrUfValue) : newton p s = newton q s := by
  simp only [newton, drawY, hdraw]

/-- `EST` takes from the parameters the draws and the seed at the reduced input (R52, R55). -/
theorem estimate_congr (hdraw : p.nrUfValue = q.nrUfValue)
    (hseed : romRead p.seed (rangeReduce s.x).1 = romRead q.seed (rangeReduce s.x).1) : estimate p s = estimate q s := by
  have hlook : lookUpSeed p (reduce (s.writeZs false)) = lookUpSeed q (reduce (s.writeZs false)) :=
    lookUpSeed_congr _ hseed
  simp only [estimate, refine, hlook, newton_congr _ hdraw]

/-- A sweep takes from the parameters the draws, the golden ROM and the seeds at its sixteen reduced inputs (R61). -/
theorem sweep_congr (hdraw : p.nrUfValue = q.nrUfValue) (hgold : p.gold = q.gold)
    (hseed : ∀ idx, romRead p.seed (rangeReduce (powerOfTwo idx)).1 = romRead q.seed (rangeReduce (powerOfTwo idx)).1) :
    sweep p s = sweep q s := by
  have hiteration (idx : Nibble) (t : State) : sweepIteration p idx t = sweepIteration q idx t := by
    have hest : estimate p (loadExponent idx t) = estimate q (loadExponent idx t) :=
      estimate_congr _ hdraw (hseed idx)
    simp only [sweepIteration, hest, loadGolden, hgold]
  simp only [sweep, hiteration]

end

/-- A write to entry 0 of a ROM is not seen at another index. -/
theorem romRead_set_zero (rom : Rom) (v : Half) {n : Nibble} (hn : 1 ≤ n.toNat) :
    romRead (rom.set 0 v) n = romRead rom n := by
  simp only [romRead, Vector.get_eq_getElem]
  exact Vector.getElem_set_ne _ _ (by simpa using by omega)

/-- Settles O16: `SEED` reads at `N`, and the `N` of a reduction is at least 1. -/
theorem seedEntryZeroIsNeverRead : Obligations.SeedEntryZeroIsNeverRead := by
  intro p v s
  have hreduced (x : Half) := romRead_set_zero p.seed v (rangeReduce_bounds x).1
  exact ⟨fun hn => lookUpSeed_congr s (romRead_set_zero p.seed v hn), estimate_congr s rfl (hreduced _),
    sweep_congr s rfl rfl fun idx => hreduced (powerOfTwo idx)⟩

/-- The powers of two reduce to 1, 2, 4 and 8 alone (R51 (e)). -/
theorem rangeReduce_powerOfTwo_mem (idx : Nibble) : (rangeReduce (powerOfTwo idx)).1 ∈ [1#4, 2#4, 4#4, 8#4] := by
  revert idx
  decide

/-- Settles O30: the sweep reads the seeds at its reduced inputs, which are 1, 2, 4 and 8. -/
theorem sweepReadsFourSeeds : Obligations.SweepReadsFourSeeds := fun _ _ s hseed hgold hdraw =>
  sweep_congr s hdraw hgold fun idx => hseed _ (rangeReduce_powerOfTwo_mem idx)

/-! ## Two sweeps without underflow (R61) -/

/-- Two states agree on the operands of `NR` (R53). -/
def AgreeOnNewton (s u : State) : Prop := s.x = u.x ∧ s.y = u.y

/-- A flag that is clear after `NR` was clear before it. -/
theorem flag_of_flag_newton {p : Params} {s : State} {b : Flag} (h : (newton p s).flag b = false) : s.flag b = false := by
  rw [flag_newton, Bool.or_eq_false_iff] at h
  exact h.1

section
variable {p q : Params} {s u : State}

/-- Without underflow `NR` does not draw, so states that agree on its operands agree after it. -/
theorem newton_agree (h : AgreeOnNewton s u) (huf : (newton p s).flag .uf = false) :
    AgreeOnNewton (newton p s) (newton q u) := by
  obtain ⟨hx, hy⟩ := h
  have hs : NewtonSafe s.x s.y := by
    rw [flag_newton, Bool.or_eq_false_iff] at huf
    simpa using huf.2
  have hu : NewtonSafe u.x u.y := hx ▸ hy ▸ hs
  rw [newton_of_safe p s hs, newton_of_safe q u hu]
  exact ⟨hx, congrArg₂ newtonResult hx hy⟩

variable (hseed : p.seed = q.seed)
include hseed

/-- Without underflow the non-zero path depends on `X` and the seed ROM alone. -/
theorem refine_agree (hx : s.x = u.x) (huf : (refine p s).flag .uf = false) :
    AgreeOnNewton (refine p s) (refine q u) := by
  have hseeded : AgreeOnNewton (lookUpSeed p (reduce s)) (lookUpSeed q (reduce u)) := by
    simp [AgreeOnNewton, lookUpSeed, reduce, hx, hseed]
  have hsecond := flag_of_flag_newton huf
  have hfirst := flag_of_flag_newton hsecond
  exact newton_agree (newton_agree (newton_agree hseeded hfirst) hsecond) huf

/-- Without underflow the estimate of an input other than 0 depends on the input and the seed ROM alone (R55). -/
theorem estimate_y_eq (hx : s.x = u.x) (hne : s.x ≠ 0#16) (huf : (estimate p s).flag .uf = false) :
    (estimate p s).y = (estimate q u).y := by
  simp only [estimate, if_neg hne, if_neg (hx ▸ hne)] at huf ⊢
  have hx' : (s.writeZs false).x = (u.writeZs false).x := hx
  exact (refine_agree hseed hx' huf).2

variable (hgold : p.gold = q.gold)
include hgold

/-- Without underflow the record of a sweep iteration depends on the two ROMs alone: its `res` is the estimate, and the other
fields are computed from that, the exponent and the golden word. -/
theorem snapshot_sweepIteration_eq (idx : Nibble) (huf : (sweepIteration p idx s).flag .uf = false) :
    snapshot (sweepIteration p idx s) = snapshot (sweepIteration q idx u) := by
  have hestuf : (estimate p (loadExponent idx s)).flag .uf = false := by
    rw [flag_sweepIteration, Bool.or_eq_false_iff] at huf
    exact huf.1
  have hy : (sweepIteration p idx s).y = (sweepIteration q idx u).y := by
    rw [sweepIteration_y, sweepIteration_y]
    exact estimate_y_eq hseed rfl (powerOfTwo_ne_zero idx) hestuf
  obtain ⟨y, st, k, hs, -⟩ := sweepIteration_frame p s idx
  obtain ⟨y', st', k', hu, -⟩ := sweepIteration_frame q u idx
  rw [hs, hu] at hy ⊢
  obtain rfl : y = y' := hy
  simp only [snapshot, hgold]

/-- Sweep iterations that leave `UF` clear append the same records whatever the state and the draws: `UF` is sticky, so none of
them underflowed. -/
theorem foldl_sweepIteration_out_eq (idxs : List Nibble) (s u : State)
    (huf : (idxs.foldl (fun t idx => sweepIteration p idx t) s).flag .uf = false) : ∃ records,
    (idxs.foldl (fun t idx => sweepIteration p idx t) s).out = s.out ++ records ∧
      (idxs.foldl (fun t idx => sweepIteration q idx t) u).out = u.out ++ records := by
  induction idxs generalizing s u with
  | nil => exact ⟨[], by simp⟩
  | cons idx idxs ih =>
    have hfirst : (sweepIteration p idx s).flag .uf = false := by
      by_contra hset
      have hend := flag_foldl_sweepIteration_of_flag p idxs (by decide) _ (Bool.eq_true_of_not_eq_false hset)
      exact absurd (hend.symm.trans huf) (by decide)
    have hrecord := snapshot_sweepIteration_eq (u := u) hseed hgold idx hfirst
    obtain ⟨records, hs, hu⟩ := ih (sweepIteration p idx s) (sweepIteration q idx u) huf
    refine ⟨snapshot (sweepIteration p idx s) :: records, ?_, ?_⟩
    · rw [List.foldl_cons, hs, sweepIteration_out_snapshot, List.append_assoc, List.singleton_append]
    · rw [List.foldl_cons, hu, sweepIteration_out_snapshot, ← hrecord, List.append_assoc, List.singleton_append]

end

/-- Settles O29: both sweeps append the records that the ROMs give. -/
theorem sweepRecordsDependOnRomsAlone : Obligations.SweepRecordsDependOnRomsAlone := by
  intro p q s u hseed hgold huf
  obtain ⟨records, hs, hu⟩ := foldl_sweepIteration_out_eq hseed hgold sweepExponents s u huf
  have hs' : (sweep p s).out = s.out ++ records := hs
  have hu' : (sweep q u).out = u.out ++ records := hu
  simp only [newRecords, hs', hu', List.drop_left]

end Sys2Proof.Machine
end

section
/-!
PROOF. `LDA` and `SEED` (40_load.md R48, 42_seed.md R52), `EST` against `ESTM` (44_estimate.md R55), a step of a legal word
(70_reset_and_hazards.md R83), and the host's reads (10_state.md R14, R18).
-/

namespace Sys2Proof.Machine

/-- Settles O10: the effect is the write to one field, and the word is of the V format. -/
theorem loadReference : Obligations.LoadReference := by
  intro imm16 s
  refine ⟨exec_eq_effect _ _, ?_⟩
  rw [encode_of_format_v rfl]
  simp [Instr.matchWord, Instr.opcode, Nibble.toWord, Instr.imm16Field]

/-- Settles O15: the shift is the division; a 16-bit word divided by `2 ^ 7` is at most 511. -/
theorem seedLookUp : Obligations.SeedLookUp := by
  refine ⟨encode_of_format_z rfl, fun s => ⟨romRead Config.seed s.n >>> s.s.toNat, exec_eq_effect s .seed, ?_, ?_, ?_⟩⟩
  · rw [BitVec.toNat_ushiftRight, Nat.shiftRight_eq_div_pow]
    rfl
  · intro h
    rw [h]
    exact BitVec.ushiftRight_zero _
  · intro h
    have hword := (romRead Config.seed s.n).isLt
    rw [h, BitVec.toNat_ushiftRight, Nat.shiftRight_eq_div_pow, show (7#4).toNat = 7 from rfl]
    omega

/-- Settles O21: on an input other than 0 `EST` is the non-zero path from the state with `ZS` cleared, `ESTM` is that path
from the state as it is; the path does not read `STATUS`. -/
theorem estimateAgreesWithPrimitivePath : Obligations.EstimateAgreesWithPrimitivePath := by
  intro s hx
  have hrefine := readsOperandsOnly_refine Config.params
  have h : AgreeOnOperands (s.writeZs false) s := (readsOperandsOnly_writeZs false).agree (agreeOnOperands_refl s)
  have hest : exec .est s = .next (refine Config.params (s.writeZs false)) := by
    rw [exec_eq_effect, effect, estimate, if_neg hx]
  obtain ⟨hx', hn, hs, hy, -⟩ := hrefine.agree h
  have huf := hrefine.flag h .uf (flag_writeZs s false .uf)
  refine ⟨_, _, hest, execAll_estm s, ⟨hx', hn, hs, hy, huf⟩, ?_, flag_refine_of_ne_uf _ s (by decide)⟩
  rw [flag_refine_of_ne_uf _ _ (by decide), flag_writeZs, if_pos rfl]

/-- Settles O33: the step accepts the word with the input taken off, and accepting a word that decodes to a command runs it. -/
theorem stepRunsDecodedCommand : Obligations.StepRunsDecodedCommand := by
  intro s w rest i hhost hdecode
  rw [step_of_host_command s w rest hhost, acceptWord, hdecode]
  rfl

/-- Settles O48: every register is zero-extended, which keeps its number and its bits. -/
theorem hostReads : Obligations.HostReads := by
  intro s
  have hstatus := s.status.isLt
  refine ⟨?_, ?_, ?_, ?_, ?_, toNat_toWord _, toNat_nibble_toWord _, toNat_nibble_toWord _, toNat_toWord _, toNat_toWord _,
    toNat_toWord _, rfl, toNat_toWord _, toNat_nibble_toWord _⟩
  · rwa [hostRead, toNat_nibble_toWord]
  all_goals simp [hostRead, Nibble.toWord, State.flag, flagBit]

end Sys2Proof.Machine
end

section
/-!
PROOF. The text around the numbers of a line (46_report.md R60): what the trimming leaves at its ends.
-/

namespace Sys2Proof.Machine

/-- A byte that is trimmed as no digit is no digit. -/
theorem not_isDigitByte {b : Byte} (h : isDigit b = false) : ¬ IsDigitByte b := by
  rw [IsDigitByte, ← isDigit_iff, h]
  decide

/-- The text between two numbers neither starts nor ends with a digit. -/
theorem textBetween_noDigitAtEnds (k : Nat) : NoDigitAtEnds (textBetween k) := by
  refine ⟨fun b hb => not_isDigitByte ?_, fun b hb => not_isDigitByte (getLast?_trimEnd _ _ b hb)⟩
  exact head?_trimStart _ _ b (head?_trimEnd _ _ b hb)

/-- The text before the argument ends neither with a digit nor with a sign. -/
theorem textBeforeArg_getLast? : ∀ b ∈ textBeforeArg.getLast?, ¬ IsDigitByte b ∧ b ≠ 0x2B#8 ∧ b ≠ 0x2D#8 := by
  intro b hb
  have h := getLast?_trimEnd _ _ b hb
  rw [Bool.or_eq_false_iff, isSign, Bool.or_eq_false_iff, beq_eq_false_iff_ne, beq_eq_false_iff_ne] at h
  obtain ⟨hdigit, hplus, hminus⟩ := h
  exact ⟨not_isDigitByte hdigit, hplus, hminus⟩

/-- Settles O49: the five texts are those that `lineText` puts around the numbers. -/
theorem linesDifferInNumbersOnly : Obligations.LinesDifferInNumbersOnly :=
  ⟨textBeforeArg, textBetween 1, textBetween 2, textBetween 3, textAfterRel, fun _ => rfl, textBeforeArg_getLast?,
    textBetween_noDigitAtEnds 1, textBetween_noDigitAtEnds 2, textBetween_noDigitAtEnds 3,
    fun b hb => not_isDigitByte (head?_trimStart _ _ b hb)⟩

end Sys2Proof.Machine
end
